-- ==== Sys2Proof/Word.lean ====
section
/-! DEFINITION. Words, bytes and the two operand widths (spec/00_scope.md sections 3 and 6.1, R3). -/

namespace Sys2Proof

/-- One byte of memory or of an instruction. -/
abbrev Byte := BitVec 8

/-- A 16-bit general register, or the instruction pointer (R3, R10, R18). -/
abbrev Word := BitVec 16

/-- A 3-bit register field value `i`; the same value names `x[i]` at width 16 (R11) and a byte half at width 8 (R12). -/
abbrev RegField := Fin 8

/-- The operand width the `w` bit selects: `w = 0` is `byte`, `w = 1` is `word` (GLOSSARY "w"). -/
inductive Width where
  | byte
  | word
deriving DecidableEq, Repr

/-- `W`, the operand width in bits (00_scope.md section 6.1). -/
abbrev Width.bits : Width → Nat
  | .byte => 8
  | .word => 16

/-- `W/8`, the operand size in bytes. -/
abbrev Width.bytes : Width → Nat
  | .byte => 1
  | .word => 2

end Sys2Proof
end

