-- ==== Sys2Proof/Config.lean ====
section
/-! DEFINITION. What is fixed for the core, and the type of its one behavioural parameter (R3, R5).
The spec leaves no value open (spec/93_implementation_defined.md section 1), so there is no free value here. -/

namespace Sys2Proof

/-- `MEM_SIZE`, 2^20 bytes (R3, R20, conflict C6). -/
abbrev Config.memSize : Nat := 1048576

/-- `BRANCH_EXEC` (R5, decision D10): which jumps and loops change the instruction pointer. -/
inductive BranchExec where
  /-- Only `jnz` does: the behaviour the source attests, and the default. -/
  | jnzOnly
  /-- Also `je`, `js`, `jns`, `jcxz` and the loops, as far as `ZF`, `SF` and `cx` can express their conditions. -/
  | extended
deriving DecidableEq, Repr

/-- The default of `BRANCH_EXEC` (R5). -/
def Config.defaultBranchExec : BranchExec := .jnzOnly

end Sys2Proof
end

