-- ==== Sys2Proof/Syntax.lean ====
section
/-! DEFINITION. The 34 instructions of spec/30_encoding.md R52, one constructor a row of spec/opcode_table.json.
Every bit of an encoding has its place in the term, so that redundant encodings (R70) stay apart: see notes/assumptions/10.md. -/

namespace Sys2Proof

/-- The eight base expressions of the effective-address table, in `rm` order 000 to 111 (R96). -/
inductive Base where
  | bxSi
  | bxDi
  | bpSi
  | bpDi
  | si
  | di
  | bp
  | bx
deriving DecidableEq, Repr

/-- The operand that `mod` and `rm` name, with its displacement bytes (R61, R95). -/
inductive Rm where
  /-- `mod = 11`: the register of the field value `rm`. -/
  | reg (i : RegField)
  /-- `mod = 00`, `rm = 110`: a 16-bit direct address (R97). -/
  | direct (addr : Word)
  /-- `mod = 00`, any other `rm`: the base expression alone. -/
  | base (b : Base)
  /-- `mod = 01`: the base expression plus a signed byte. -/
  | disp8 (b : Base) (d : Byte)
  /-- `mod = 10`: the base expression plus a signed word. -/
  | disp16 (b : Base) (d : Word)
deriving DecidableEq, Repr

/-- The direction bit `d` of format RM (R53, R103). -/
inductive Dir where
  /-- `d = 0`: `reg` is the source, the `rm` operand the destination. -/
  | regIsSource
  /-- `d = 1`: `reg` is the destination, the `rm` operand the source. -/
  | regIsDest
deriving DecidableEq, Repr

/-- The immediate of forms IR, IRM and IA, which fixes the width: one byte for `w = 0`, two for `w = 1` (R62). -/
inductive Imm where
  | imm8 (v : Byte)
  | imm16 (v : Word)
deriving DecidableEq, Repr

/-- The immediate of form GRP, which fixes `s` and `w` (R62). -/
inductive GrpImm where
  /-- byte 0 = 0x80: `s = 0`, `w = 0`. -/
  | imm8 (v : Byte)
  /-- byte 0 = 0x81: `s = 0`, `w = 1`. -/
  | imm16 (v : Word)
  /-- byte 0 = 0x82: `s = 1`, `w = 0`, the same operand as 0x80 (decision D8). -/
  | imm8s (v : Byte)
  /-- byte 0 = 0x83: `s = 1`, `w = 1`, one byte sign-extended to 16 bits. -/
  | sext8 (v : Byte)
deriving DecidableEq, Repr

/-- The three arithmetic operations that share `Arith` (R132). -/
inductive ArithKind where
  | add
  | sub
  | cmp
deriving DecidableEq, Repr

/-- The instructions, in the table's order. -/
inductive Instr where
  /-- MOV register/memory to/from register (R120). -/
  | movRmReg (d : Dir) (w : Width) (rm : Rm) (reg : RegField)
  /-- MOV immediate to register/memory (R121); `ign` is byte 1 bits [5:3], which this form ignores (R67). -/
  | movRmImm (ign : BitVec 3) (rm : Rm) (imm : Imm)
  /-- MOV immediate to register (R122). -/
  | movRegImm (reg : RegField) (imm : Imm)
  /-- MOV memory to accumulator (R123). -/
  | movAccMem (w : Width) (addr : Word)
  /-- MOV accumulator to memory (R124). -/
  | movMemAcc (w : Width) (addr : Word)
  /-- ADD register/memory with register (R133). -/
  | addRmReg (d : Dir) (w : Width) (rm : Rm) (reg : RegField)
  /-- ADD immediate to register/memory (R134). -/
  | addRmImm (rm : Rm) (imm : GrpImm)
  /-- ADD immediate to accumulator (R135). -/
  | addAccImm (imm : Imm)
  /-- SUB register/memory and register (R136). -/
  | subRmReg (d : Dir) (w : Width) (rm : Rm) (reg : RegField)
  /-- SUB immediate from register/memory (R137). -/
  | subRmImm (rm : Rm) (imm : GrpImm)
  /-- SUB immediate from accumulator (R138). -/
  | subAccImm (imm : Imm)
  /-- CMP register/memory and register (R139). -/
  | cmpRmReg (d : Dir) (w : Width) (rm : Rm) (reg : RegField)
  /-- CMP immediate with register/memory (R140). -/
  | cmpRmImm (rm : Rm) (imm : GrpImm)
  /-- CMP immediate with accumulator (R141). -/
  | cmpAccImm (imm : Imm)
  /-- 0x70 (R152). -/
  | jo (disp : Byte)
  /-- 0x71 (R153). -/
  | jno (disp : Byte)
  /-- 0x72 (R154). -/
  | jb (disp : Byte)
  /-- 0x73 (R155). -/
  | jnb (disp : Byte)
  /-- 0x74 (R156). -/
  | je (disp : Byte)
  /-- 0x75 (R157). -/
  | jnz (disp : Byte)
  /-- 0x76 (R158). -/
  | jbe (disp : Byte)
  /-- 0x77 (R159). -/
  | ja (disp : Byte)
  /-- 0x78 (R160). -/
  | js (disp : Byte)
  /-- 0x79 (R161). -/
  | jns (disp : Byte)
  /-- 0x7A (R162). -/
  | jp (disp : Byte)
  /-- 0x7B (R163). -/
  | jnp (disp : Byte)
  /-- 0x7C (R164). -/
  | jl (disp : Byte)
  /-- 0x7D (R165). -/
  | jnl (disp : Byte)
  /-- 0x7E (R166). -/
  | jle (disp : Byte)
  /-- 0x7F (R167). -/
  | jg (disp : Byte)
  /-- 0xE0 (R170). -/
  | loopnz (disp : Byte)
  /-- 0xE1 (R171). -/
  | loopz (disp : Byte)
  /-- 0xE2 (R172). -/
  | loop (disp : Byte)
  /-- 0xE3 (R173). -/
  | jcxz (disp : Byte)
deriving DecidableEq, Repr

end Sys2Proof
end

