-- ==== Sys2Proof/WellFormed.lean ====
section
/-! DEFINITION. Which terms stand for an encoding. The one constraint that the types do not carry: with `mod = 00` the
`rm = 110` slot is the direct address, so there is no `[bp]` without a displacement (R61, R95, R96, R70 (f)). -/

namespace Sys2Proof

/-- No encoding has `mod = 00` with the base `bp` alone (R96). -/
def Rm.wf : Rm → Bool
  | .base .bp => false
  | _ => true

/-- An instruction some bytes decode to (R68: every other field value is legal). -/
def Instr.wf : Instr → Bool
  | .movRmReg _ _ rm _ => rm.wf
  | .movRmImm _ rm _ => rm.wf
  | .movRegImm _ _ => true
  | .movAccMem _ _ => true
  | .movMemAcc _ _ => true
  | .addRmReg _ _ rm _ => rm.wf
  | .addRmImm rm _ => rm.wf
  | .addAccImm _ => true
  | .subRmReg _ _ rm _ => rm.wf
  | .subRmImm rm _ => rm.wf
  | .subAccImm _ => true
  | .cmpRmReg _ _ rm _ => rm.wf
  | .cmpRmImm rm _ => rm.wf
  | .cmpAccImm _ => true
  | .jo _ => true
  | .jno _ => true
  | .jb _ => true
  | .jnb _ => true
  | .je _ => true
  | .jnz _ => true
  | .jbe _ => true
  | .ja _ => true
  | .js _ => true
  | .jns _ => true
  | .jp _ => true
  | .jnp _ => true
  | .jl _ => true
  | .jnl _ => true
  | .jle _ => true
  | .jg _ => true
  | .loopnz _ => true
  | .loopz _ => true
  | .loop _ => true
  | .jcxz _ => true

end Sys2Proof
end

