-- ==== Sys2Proof/Decode.lean ====
section
/-! DEFINITION. The dispatch table, the decoder, the encoder and instruction lengths (spec/30_encoding.md R50 to R70).
The opcode bytes other than 0x89 and 0xB0 are the Intel 8086's, as the spec gives them: notes/assumptions/13.md. -/

namespace Sys2Proof

/-! ## Fields -/

/-- A 16-bit value from its low and its high byte: little-endian (R35, R61, R62). -/
def le16 (lo hi : Byte) : Word := hi ++ lo

/-- The low byte of a 16-bit value, `v[7:0]`. -/
def lowByte (v : Word) : Byte := v.extractLsb' 0 8

/-- The high byte of a 16-bit value, `v[15:8]`. -/
def highByte (v : Word) : Byte := v.extractLsb' 8 8

/-- `w`, byte 0 bit 0, of every form but IR (R53, R54, R55, R57, R58). -/
def wBit (b0 : Byte) : Bool := b0.getLsbD 0

/-- `d` of form RM, or `s` of form GRP: byte 0 bit 1 (R53, R55). -/
def dBit (b0 : Byte) : Bool := b0.getLsbD 1

/-- `w` of form IR, byte 0 bit 3 (R56). -/
def irWBit (b0 : Byte) : Bool := b0.getLsbD 3

/-- The width a `w` bit selects. -/
def widthOfBit (w : Bool) : Width := if w then .word else .byte

/-- The `w` bit of a width. -/
def Width.bit : Width → BitVec 1
  | .byte => 0#1
  | .word => 1#1

/-- The direction a `d` bit selects (R53). -/
def dirOfBit (d : Bool) : Dir := if d then .regIsDest else .regIsSource

/-- The `d` bit of a direction. -/
def Dir.bit : Dir → BitVec 1
  | .regIsSource => 0#1
  | .regIsDest => 1#1

/-- `mod`, byte 1 bits [7:6]. -/
def modField (b1 : Byte) : BitVec 2 := b1.extractLsb' 6 2

/-- `reg`, or the selector of form GRP, or the ignored bits of form IRM: byte 1 bits [5:3]. -/
def midField (b1 : Byte) : BitVec 3 := b1.extractLsb' 3 3

/-- `rm`, byte 1 bits [2:0]; also the register of form IR, byte 0 bits [2:0]. -/
def lowField (b : Byte) : BitVec 3 := b.extractLsb' 0 3

/-- The addressing byte `mod reg rm`. -/
def addressingByte (mod : BitVec 2) (mid rm : BitVec 3) : Byte := mod ++ mid ++ rm

/-- A 3-bit field read as a register field value. -/
def regOfField (f : BitVec 3) : RegField := f.toFin

/-- A register field value as a 3-bit field. -/
def fieldOfReg (i : RegField) : BitVec 3 := BitVec.ofFin i

/-- The base expression of an `rm` value (R96). -/
def Base.ofField (f : BitVec 3) : Base :=
  match f.toFin with
  | 0 => .bxSi
  | 1 => .bxDi
  | 2 => .bpSi
  | 3 => .bpDi
  | 4 => .si
  | 5 => .di
  | 6 => .bp
  | 7 => .bx

/-- The `rm` value of a base expression (R96). -/
def Base.field : Base → BitVec 3
  | .bxSi => 0b000#3
  | .bxDi => 0b001#3
  | .bpSi => 0b010#3
  | .bpDi => 0b011#3
  | .si => 0b100#3
  | .di => 0b101#3
  | .bp => 0b110#3
  | .bx => 0b111#3

/-! ## The dispatch table -/

/-- The twenty instructions of format J (R59). -/
inductive Jump where
  | jo | jno | jb | jnb | je | jnz | jbe | ja | js | jns | jp | jnp | jl | jnl | jle | jg
  | loopnz | loopz | loop | jcxz
deriving DecidableEq, Repr

/-- The instruction of a format J opcode. -/
def Jump.instr : Jump → Byte → Instr
  | .jo => .jo
  | .jno => .jno
  | .jb => .jb
  | .jnb => .jnb
  | .je => .je
  | .jnz => .jnz
  | .jbe => .jbe
  | .ja => .ja
  | .js => .js
  | .jns => .jns
  | .jp => .jp
  | .jnp => .jnp
  | .jl => .jl
  | .jnl => .jnl
  | .jle => .jle
  | .jg => .jg
  | .loopnz => .loopnz
  | .loopz => .loopz
  | .loop => .loop
  | .jcxz => .jcxz

/-- ADD, SUB or CMP of register/memory with register (format RM). -/
def ArithKind.rmReg : ArithKind → Dir → Width → Rm → RegField → Instr
  | .add => .addRmReg
  | .sub => .subRmReg
  | .cmp => .cmpRmReg

/-- ADD, SUB or CMP of register/memory with an immediate (format GRP). -/
def ArithKind.rmImm : ArithKind → Rm → GrpImm → Instr
  | .add => .addRmImm
  | .sub => .subRmImm
  | .cmp => .cmpRmImm

/-- ADD, SUB or CMP of the accumulator with an immediate (format IA). -/
def ArithKind.accImm : ArithKind → Imm → Instr
  | .add => .addAccImm
  | .sub => .subAccImm
  | .cmp => .cmpAccImm

/-- The operation a GRP selector chooses; the other five values choose none (R55, R66). -/
def ArithKind.ofSelector (sel : BitVec 3) : Option ArithKind :=
  if sel = 0b000#3 then some .add
  else if sel = 0b101#3 then some .sub
  else if sel = 0b111#3 then some .cmp
  else none

/-- The GRP selector of an operation (R55). -/
def ArithKind.selector : ArithKind → BitVec 3
  | .add => 0b000#3
  | .sub => 0b101#3
  | .cmp => 0b111#3

/-- What a dispatch table entry selects (R51). -/
inductive Form where
  | rmMov
  | rmArith (k : ArithKind)
  | irm
  | ir
  | maLoad
  | maStore
  | grp
  | ia (k : ArithKind)
  | j (jump : Jump)
deriving DecidableEq, Repr

/-- One entry of the dispatch table: a pattern of `len` bits and a form (R51). -/
structure DispatchEntry where
  len : Nat
  pattern : Nat
  form : Form
deriving DecidableEq, Repr

/-- The entry's pattern equals the top `len` bits of the byte, `b[7:8-len]` (R51). -/
def DispatchEntry.selects (e : DispatchEntry) (b : Byte) : Bool :=
  b.toNat >>> (8 - e.len) == e.pattern

/-- The entries 1 to 12 of R51. -/
def dispatchOperations : List DispatchEntry :=
  [ ⟨6, 0b100010, .rmMov⟩,
    ⟨7, 0b1100011, .irm⟩,
    ⟨4, 0b1011, .ir⟩,
    ⟨7, 0b1010000, .maLoad⟩,
    ⟨7, 0b1010001, .maStore⟩,
    ⟨6, 0b000000, .rmArith .add⟩,
    ⟨6, 0b100000, .grp⟩,
    ⟨7, 0b0000010, .ia .add⟩,
    ⟨6, 0b001010, .rmArith .sub⟩,
    ⟨7, 0b0010110, .ia .sub⟩,
    ⟨6, 0b001110, .rmArith .cmp⟩,
    ⟨7, 0b0011110, .ia .cmp⟩ ]

/-- The entries 13 to 32 of R51, the bytes of R59. -/
def dispatchJumps : List DispatchEntry :=
  [ ⟨8, 0x70, .j .jo⟩, ⟨8, 0x71, .j .jno⟩, ⟨8, 0x72, .j .jb⟩, ⟨8, 0x73, .j .jnb⟩,
    ⟨8, 0x74, .j .je⟩, ⟨8, 0x75, .j .jnz⟩, ⟨8, 0x76, .j .jbe⟩, ⟨8, 0x77, .j .ja⟩,
    ⟨8, 0x78, .j .js⟩, ⟨8, 0x79, .j .jns⟩, ⟨8, 0x7A, .j .jp⟩, ⟨8, 0x7B, .j .jnp⟩,
    ⟨8, 0x7C, .j .jl⟩, ⟨8, 0x7D, .j .jnl⟩, ⟨8, 0x7E, .j .jle⟩, ⟨8, 0x7F, .j .jg⟩,
    ⟨8, 0xE0, .j .loopnz⟩, ⟨8, 0xE1, .j .loopz⟩, ⟨8, 0xE2, .j .loop⟩, ⟨8, 0xE3, .j .jcxz⟩ ]

/-- The dispatch table of R51. -/
def dispatchTable : List DispatchEntry := dispatchOperations ++ dispatchJumps

/-- `Dispatch(b0)`: the form of the entry that matches byte 0, if one does (R51, R93). -/
def dispatch (b0 : Byte) : Option Form :=
  (dispatchTable.find? fun e => e.selects b0).map fun e => e.form

/-! ## The decoder -/

/-- Why bytes are no instruction. The first two are `UnrecognizedOpcode` (R183), with the bytes as information (R181). -/
inductive DecodeError where
  /-- Byte 0 matches no entry of the dispatch table (R65). -/
  | unrecognizedOpcode (b0 : Byte)
  /-- Byte 0 is 0x80 to 0x83 and byte 1 bits [5:3] select no operation (R66). -/
  | unrecognizedSelector (b0 b1 : Byte)
  /-- The list ends inside the instruction; the core's fetch gives six bytes, the longest length, and never meets it. -/
  | truncated
deriving DecidableEq, Repr

/-- What reading one part of an instruction gives: the part and the bytes after it. -/
abbrev Decoded (α : Type) := Except DecodeError (α × List Byte)

/-- Read one part, then go on with the bytes after it; the first error ends the reading. -/
def Decoded.andThen {α β : Type} (r : Decoded α) (f : α → List Byte → Decoded β) : Decoded β :=
  match r with
  | .ok (a, bs) => f a bs
  | .error e => .error e

/-- Wrap the part read. -/
def Decoded.wrap {α β : Type} (r : Decoded α) (f : α → β) : Decoded β := r.andThen fun a bs => .ok (f a, bs)

/-- One byte, `Fetch8(cur)`. -/
def decodeByte : List Byte → Decoded Byte
  | b :: bs => .ok (b, bs)
  | [] => .error .truncated

/-- A 16-bit value, low byte first, `Fetch16(cur)` (R61, R62). -/
def decodeWord : List Byte → Decoded Word
  | lo :: hi :: bs => .ok (le16 lo hi, bs)
  | _ => .error .truncated

/-- The operand of `mod` and `rm`, with the displacement bytes that follow the addressing byte (R61, R95). -/
def decodeRm (mod : BitVec 2) (rm : BitVec 3) (bs : List Byte) : Decoded Rm :=
  if mod = 0b11#2 then .ok (.reg (regOfField rm), bs)
  else if mod = 0b00#2 then
    if rm = 0b110#3 then (decodeWord bs).wrap .direct
    else .ok (.base (Base.ofField rm), bs)
  else if mod = 0b01#2 then (decodeByte bs).wrap (.disp8 (Base.ofField rm))
  else (decodeWord bs).wrap (.disp16 (Base.ofField rm))

/-- The immediate of forms IR, IRM and IA (R62). -/
def decodeImm (w : Width) (bs : List Byte) : Decoded Imm :=
  match w with
  | .byte => (decodeByte bs).wrap .imm8
  | .word => (decodeWord bs).wrap .imm16

/-- The immediate of form GRP, by `s` and `w` (R62). -/
def decodeGrpImm (s w : Bool) (bs : List Byte) : Decoded GrpImm :=
  match s, w with
  | false, false => (decodeByte bs).wrap .imm8
  | false, true => (decodeWord bs).wrap .imm16
  | true, false => (decodeByte bs).wrap .imm8s
  | true, true => (decodeByte bs).wrap .sext8

/-- The addressing byte and the operand of its `mod` and `rm`: the middle field and the operand (R60, R61). -/
def decodeAddressing (bs : List Byte) : Decoded (BitVec 3 × Rm) :=
  (decodeByte bs).andThen fun b1 bs =>
    (decodeRm (modField b1) (lowField b1) bs).wrap fun rm => (midField b1, rm)

/-- Format RM: `d`, `w`, then `mod reg rm`, then the displacement (R53). -/
def decodeRmReg (mk : Dir → Width → Rm → RegField → Instr) (b0 : Byte) (bs : List Byte) : Decoded Instr :=
  (decodeAddressing bs).wrap fun (reg, rm) =>
    mk (dirOfBit (dBit b0)) (widthOfBit (wBit b0)) rm (regOfField reg)

/-- Format IRM: displacement, then immediate; byte 1 bits [5:3] are kept but decide nothing (R54, R60, R67). -/
def decodeIrm (b0 : Byte) (bs : List Byte) : Decoded Instr :=
  (decodeAddressing bs).andThen fun (ign, rm) bs =>
    (decodeImm (widthOfBit (wBit b0)) bs).wrap fun imm => .movRmImm ign rm imm

/-- Format GRP: the selector is checked before the displacement and the immediate are read (R55, R66, R185). -/
def decodeGrp (b0 : Byte) (bs : List Byte) : Decoded Instr :=
  (decodeByte bs).andThen fun b1 bs =>
    match ArithKind.ofSelector (midField b1) with
    | none => .error (.unrecognizedSelector b0 b1)
    | some k =>
      (decodeRm (modField b1) (lowField b1) bs).andThen fun rm bs =>
        (decodeGrpImm (dBit b0) (wBit b0) bs).wrap fun imm => k.rmImm rm imm

/-- The rest of an instruction whose byte 0 selects the form (R93). -/
def decodeForm (f : Form) (b0 : Byte) (bs : List Byte) : Decoded Instr :=
  match f with
  | .rmMov => decodeRmReg .movRmReg b0 bs
  | .rmArith k => decodeRmReg k.rmReg b0 bs
  | .irm => decodeIrm b0 bs
  | .ir => (decodeImm (widthOfBit (irWBit b0)) bs).wrap (.movRegImm (regOfField (lowField b0)))
  | .maLoad => (decodeWord bs).wrap (.movAccMem (widthOfBit (wBit b0)))
  | .maStore => (decodeWord bs).wrap (.movMemAcc (widthOfBit (wBit b0)))
  | .grp => decodeGrp b0 bs
  | .ia k => (decodeImm (widthOfBit (wBit b0)) bs).wrap k.accImm
  | .j jump => (decodeByte bs).wrap jump.instr

/-- The instruction at the head of the bytes, and the bytes after it; total, rejecting by name (R50, R64, R92). -/
def decode (bs : List Byte) : Decoded Instr :=
  match bs with
  | [] => .error .truncated
  | b0 :: rest =>
    match dispatch b0 with
    | none => .error (.unrecognizedOpcode b0)
    | some f => decodeForm f b0 rest

/-! ## The encoder -/

/-- The two bytes of a 16-bit value, low byte first (R35). -/
def wordBytes (v : Word) : List Byte := [lowByte v, highByte v]

/-- The `mod` field of an operand (R61, R95). -/
def Rm.modBits : Rm → BitVec 2
  | .reg _ => 0b11#2
  | .direct _ => 0b00#2
  | .base _ => 0b00#2
  | .disp8 _ _ => 0b01#2
  | .disp16 _ _ => 0b10#2

/-- The `rm` field of an operand (R95, R96). -/
def Rm.rmBits : Rm → BitVec 3
  | .reg i => fieldOfReg i
  | .direct _ => 0b110#3
  | .base b => b.field
  | .disp8 b _ => b.field
  | .disp16 b _ => b.field

/-- The displacement bytes of an operand (R61). -/
def Rm.dispBytes : Rm → List Byte
  | .reg _ => []
  | .direct addr => wordBytes addr
  | .base _ => []
  | .disp8 _ d => [d]
  | .disp16 _ d => wordBytes d

/-- `n_disp`, the number of displacement bytes (R61). -/
def Rm.dispLen : Rm → Nat
  | .reg _ => 0
  | .direct _ => 2
  | .base _ => 0
  | .disp8 _ _ => 1
  | .disp16 _ _ => 2

/-- The addressing byte with an operand's `mod` and `rm` and a given middle field, then the displacement. -/
def Rm.bytes (rm : Rm) (mid : BitVec 3) : List Byte := addressingByte rm.modBits mid rm.rmBits :: rm.dispBytes

/-- The width an immediate of forms IR, IRM and IA fixes. -/
def Imm.width : Imm → Width
  | .imm8 _ => .byte
  | .imm16 _ => .word

/-- The bytes of an immediate of forms IR, IRM and IA (R62). -/
def Imm.bytes : Imm → List Byte
  | .imm8 v => [v]
  | .imm16 v => wordBytes v

/-- The width an immediate of form GRP fixes (R62). -/
def GrpImm.width : GrpImm → Width
  | .imm8 _ => .byte
  | .imm16 _ => .word
  | .imm8s _ => .byte
  | .sext8 _ => .word

/-- The `s` bit an immediate of form GRP fixes (R62). -/
def GrpImm.signBit : GrpImm → BitVec 1
  | .imm8 _ => 0#1
  | .imm16 _ => 0#1
  | .imm8s _ => 1#1
  | .sext8 _ => 1#1

/-- The bytes of an immediate of form GRP (R62). -/
def GrpImm.bytes : GrpImm → List Byte
  | .imm8 v => [v]
  | .imm16 v => wordBytes v
  | .imm8s v => [v]
  | .sext8 v => [v]

/-- Byte 0 of format RM, and of GRP with `s` in the place of `d`: six opcode bits, `d` or `s`, `w` (R53, R55). -/
def opcodeByte6 (op : BitVec 6) (d w : BitVec 1) : Byte := op ++ d ++ w

/-- Byte 0 of formats IRM, MA and IA: seven opcode bits and `w` (R54, R57, R58). -/
def opcodeByte7 (op : BitVec 7) (w : BitVec 1) : Byte := op ++ w

/-- Byte 0 of format IR: four opcode bits, `w`, the register (R56). -/
def opcodeByte4 (op : BitVec 4) (w : BitVec 1) (reg : BitVec 3) : Byte := op ++ w ++ reg

/-- An instruction of format RM (R53). -/
def encodeRmReg (op : BitVec 6) (d : Dir) (w : Width) (rm : Rm) (reg : RegField) : List Byte :=
  opcodeByte6 op d.bit w.bit :: rm.bytes (fieldOfReg reg)

/-- An instruction of format GRP (R55). -/
def encodeGrp (k : ArithKind) (rm : Rm) (imm : GrpImm) : List Byte :=
  opcodeByte6 0b100000#6 imm.signBit imm.width.bit :: (rm.bytes k.selector ++ imm.bytes)

/-- An instruction of format IA (R58). -/
def encodeIa (op : BitVec 7) (imm : Imm) : List Byte := opcodeByte7 op imm.width.bit :: imm.bytes

/-- The bytes of an instruction, in ascending address order (R50 to R62). -/
def encode : Instr → List Byte
  | .movRmReg d w rm reg => encodeRmReg 0b100010#6 d w rm reg
  | .movRmImm ign rm imm => opcodeByte7 0b1100011#7 imm.width.bit :: (rm.bytes ign ++ imm.bytes)
  | .movRegImm reg imm => opcodeByte4 0b1011#4 imm.width.bit (fieldOfReg reg) :: imm.bytes
  | .movAccMem w addr => opcodeByte7 0b1010000#7 w.bit :: wordBytes addr
  | .movMemAcc w addr => opcodeByte7 0b1010001#7 w.bit :: wordBytes addr
  | .addRmReg d w rm reg => encodeRmReg 0b000000#6 d w rm reg
  | .addRmImm rm imm => encodeGrp .add rm imm
  | .addAccImm imm => encodeIa 0b0000010#7 imm
  | .subRmReg d w rm reg => encodeRmReg 0b001010#6 d w rm reg
  | .subRmImm rm imm => encodeGrp .sub rm imm
  | .subAccImm imm => encodeIa 0b0010110#7 imm
  | .cmpRmReg d w rm reg => encodeRmReg 0b001110#6 d w rm reg
  | .cmpRmImm rm imm => encodeGrp .cmp rm imm
  | .cmpAccImm imm => encodeIa 0b0011110#7 imm
  | .jo disp => [0x70#8, disp]
  | .jno disp => [0x71#8, disp]
  | .jb disp => [0x72#8, disp]
  | .jnb disp => [0x73#8, disp]
  | .je disp => [0x74#8, disp]
  | .jnz disp => [0x75#8, disp]
  | .jbe disp => [0x76#8, disp]
  | .ja disp => [0x77#8, disp]
  | .js disp => [0x78#8, disp]
  | .jns disp => [0x79#8, disp]
  | .jp disp => [0x7A#8, disp]
  | .jnp disp => [0x7B#8, disp]
  | .jl disp => [0x7C#8, disp]
  | .jnl disp => [0x7D#8, disp]
  | .jle disp => [0x7E#8, disp]
  | .jg disp => [0x7F#8, disp]
  | .loopnz disp => [0xE0#8, disp]
  | .loopz disp => [0xE1#8, disp]
  | .loop disp => [0xE2#8, disp]
  | .jcxz disp => [0xE3#8, disp]

/-! ## Lengths -/

/-- The size in bytes of an immediate of forms IR, IRM and IA: 1 if `w = 0`, else 2 (R63). -/
def Imm.len (imm : Imm) : Nat := imm.width.bytes

/-- The size in bytes of an immediate of form GRP: 2 if `s = 0` and `w = 1`, else 1 (R63). -/
def GrpImm.len : GrpImm → Nat
  | .imm8 _ => 1
  | .imm16 _ => 2
  | .imm8s _ => 1
  | .sext8 _ => 1

/-- The length of format RM (R63). -/
def lenRmReg (rm : Rm) : Nat := 2 + rm.dispLen

/-- The length of format IRM (R63). -/
def lenIrm (rm : Rm) (imm : Imm) : Nat := 2 + rm.dispLen + imm.len

/-- The length of format GRP (R63). -/
def lenGrp (rm : Rm) (imm : GrpImm) : Nat := 2 + rm.dispLen + imm.len

/-- The length of formats IR and IA (R63). -/
def lenImm (imm : Imm) : Nat := 1 + imm.len

/-- The length of format MA (R57, R63). -/
def lenMa : Nat := 3

/-- The length of format J (R59, R63). -/
def lenJ : Nat := 2

/-- `L`, the length in bytes of an instruction (R63). -/
def Instr.length : Instr → Nat
  | .movRmReg _ _ rm _ => lenRmReg rm
  | .movRmImm _ rm imm => lenIrm rm imm
  | .movRegImm _ imm => lenImm imm
  | .movAccMem _ _ => lenMa
  | .movMemAcc _ _ => lenMa
  | .addRmReg _ _ rm _ => lenRmReg rm
  | .addRmImm rm imm => lenGrp rm imm
  | .addAccImm imm => lenImm imm
  | .subRmReg _ _ rm _ => lenRmReg rm
  | .subRmImm rm imm => lenGrp rm imm
  | .subAccImm imm => lenImm imm
  | .cmpRmReg _ _ rm _ => lenRmReg rm
  | .cmpRmImm rm imm => lenGrp rm imm
  | .cmpAccImm imm => lenImm imm
  | .jo _ => lenJ
  | .jno _ => lenJ
  | .jb _ => lenJ
  | .jnb _ => lenJ
  | .je _ => lenJ
  | .jnz _ => lenJ
  | .jbe _ => lenJ
  | .ja _ => lenJ
  | .js _ => lenJ
  | .jns _ => lenJ
  | .jp _ => lenJ
  | .jnp _ => lenJ
  | .jl _ => lenJ
  | .jnl _ => lenJ
  | .jle _ => lenJ
  | .jg _ => lenJ
  | .loopnz _ => lenJ
  | .loopz _ => lenJ
  | .loop _ => lenJ
  | .jcxz _ => lenJ

/-! ## Table words -/

/-- Bits `lo` to `lo + 7` of a number, as a byte. -/
def byteAt (w lo : Nat) : Byte := BitVec.ofNat 8 (w >>> lo)

/-- Bytes `2 * k` and `2 * k + 1` of an instruction numbered as spec/opcode_table.json numbers it: the table's unit is
16 bits, the earlier byte in bits [15:8], the later in bits [7:0]; a last unit of one byte is that byte alone; what
lies above `nbits` is zero (notes/assumptions/14.md). -/
def tableUnitBytes (nbits w k : Nat) : List Byte :=
  if 16 * k + 16 ≤ nbits then [byteAt w (16 * k + 8), byteAt w (16 * k)]
  else if 16 * k + 8 ≤ nbits then [byteAt w (16 * k), 0#8]
  else [0#8, 0#8]

/-- The six bytes, the longest length, of an instruction given as a table number; R52 says how the table numbers bits. -/
def tableWordBytes (nbits w : Nat) : List Byte :=
  tableUnitBytes nbits w 0 ++ tableUnitBytes nbits w 1 ++ tableUnitBytes nbits w 2

/-- The instruction the decoder reads from a table number, or none where it refuses. -/
def decodeTableWord (nbits w : Nat) : Option Instr :=
  match decode (tableWordBytes nbits w) with
  | .ok (i, _) => some i
  | .error _ => none

end Sys2Proof
end

