-- ==== Sys2Proof/Machine/State.lean ====
section
/-! DEFINITION. The state of the core as plain data (spec/10_state.md), the reasons an instruction raises, and reset. -/

namespace Sys2Proof.Machine

/-- Run status (R21, decision D14). -/
inductive Status where
  /-- The next step fetches at `ip`. -/
  | running
  /-- The halt check found `ip >= PROG_LEN`; the run ended normally. -/
  | halted
  /-- An instruction raised a fault. -/
  | faulted
deriving DecidableEq, Repr

/-- Why the core is `Faulted`; `none` otherwise (R21, R181). -/
inductive Cause where
  | none
  | unrecognizedOpcode
  | memoryOutOfBounds
deriving DecidableEq, Repr

/-- The two faults a step raises (R180). The spec describes what a fault does (R182: `status` and `cause` are written, all
else is kept), so a raised fault is a NEXT state, taken by `State.raise`; `step` never answers `Host.Outcome.fault`
(notes/assumptions/4.md). Safe: the state after a fault is the one the spec gives. -/
inductive Fault where
  /-- Raised by the fetch of an instruction whose byte 0, or GRP selector, is not recognised (R183). Safe. -/
  | unrecognizedOpcode
  /-- Raised by `State.memRead` and `State.memWrite` on an access outside the 2^20 bytes (R31, R184). Safe. -/
  | memoryOutOfBounds
deriving DecidableEq, Repr

/-- Reasons to have no meaning for an instruction. -/
inductive Refusal where
  /-- An arm of `exec` without a meaning. Every arm has one, so nothing raises it. Safe. -/
  | notModelled (mnemonic : String)
deriving DecidableEq, Repr

/-- The register file `x[0..7]` (R10). -/
abbrev Regs := Vector Word 8

/-- `MEM` (R20), as the list of its bytes that differ from `Memory.unlisted`, by rising address. -/
abbrev Memory := List Host.Cell

/-- What an unlisted address of `MEM` reads as: 0x00, the reset contents beyond the image (R23, decision D1). -/
def Memory.unlisted : Byte := 0#8

/-- The canonical form: addresses strictly rising and below `MEM_SIZE`, no entry equal to what is unlisted. -/
abbrev Memory.wf (m : Memory) : Prop :=
  m.Pairwise (fun p q => p.1 < q.1) ∧ ∀ p ∈ m, p.1 < Config.memSize ∧ p.2 ≠ Memory.unlisted

/-- The state of the core (spec/10_state.md section 1), and the two launch arguments of R4 and R5, which no step changes
(notes/assumptions/1.md). -/
structure State where
  /-- The general registers (R10). -/
  x : Regs
  /-- The zero flag (R16). -/
  zf : Bool
  /-- The sign flag (R16). -/
  sf : Bool
  /-- The instruction pointer (R18). -/
  ip : Word
  /-- The memory (R20). -/
  mem : Memory
  /-- The run status (R21). -/
  status : Status
  /-- The fault of a `Faulted` core (R21, R181). -/
  cause : Cause
  /-- `PROG_LEN`, the length in bytes of the loaded image (R4). -/
  progLen : Nat
  /-- `BRANCH_EXEC` (R5). -/
  branchExec : BranchExec
deriving DecidableEq, Repr

/-- The machine right after reset with the empty image and the default `BRANCH_EXEC` (R23, R200; notes/assumptions/2.md and
notes/assumptions/3.md). A reset with an image is `State.launch`. -/
def State.reset : State where
  x := Vector.replicate 8 0#16
  zf := false
  sf := false
  ip := 0#16
  mem := []
  status := .running
  cause := .none
  progLen := 0
  branchExec := Config.defaultBranchExec

end Sys2Proof.Machine
end

