-- ==== Sys2Proof/Machine/Ops.lean ====
section
/-! DEFINITION. The named operations: registers, memory (spec/20_memory.md), the fetch, the halt check, raising a fault
(spec/60_exceptions.md R182), advancing `ip`, loading an image (spec/70_reset_and_hazards.md). -/

namespace Sys2Proof.Machine

/-- The outcome of a step of this machine. -/
abbrev Result := Host.Outcome State Fault Refusal

/-! ## Registers -/

/-- `x[i]` (R10). -/
def Regs.read (x : Regs) (i : RegField) : Word := x.get i

/-- `x[i] <- v` (R10). -/
def Regs.write (x : Regs) (i : RegField) (v : Word) : Regs := x.set i v

/-! ## Memory -/

/-- `MEM[a]` (R20). -/
def Memory.read (m : Memory) (a : Nat) : Byte :=
  match m with
  | [] => Memory.unlisted
  | (k, v) :: rest => if k = a then v else Memory.read rest a

/-- The memory with address `a` unlisted. -/
def Memory.erase (m : Memory) (a : Nat) : Memory := m.filter fun p => p.1 ≠ a

/-- The memory with a cell put in before the first higher address. -/
def Memory.insert (m : Memory) (a : Nat) (b : Byte) : Memory :=
  match m with
  | [] => [(a, b)]
  | (k, v) :: rest => if a < k then (a, b) :: (k, v) :: rest else (k, v) :: Memory.insert rest a b

/-- `MEM[a] <- b`, keeping the canonical form (R20). -/
def Memory.write (m : Memory) (a : Nat) (b : Byte) : Memory :=
  if b = Memory.unlisted then m.erase a else (m.erase a).insert a b

/-- The bytes written at rising addresses from `a`. -/
def Memory.writeBytes (m : Memory) (a : Nat) (bs : List Byte) : Memory :=
  match bs with
  | [] => m
  | b :: rest => Memory.writeBytes (m.write a b) (a + 1) rest

/-- The memory that holds an image from address `a` up and zeros elsewhere (R23, R201). -/
def Memory.ofImage (a : Nat) (image : List Byte) : Memory :=
  match image with
  | [] => []
  | b :: rest => if b = Memory.unlisted then Memory.ofImage (a + 1) rest else (a, b) :: Memory.ofImage (a + 1) rest

/-- The value of width `w` at `a`, little-endian (R32, R35). -/
def Memory.readAt (m : Memory) (a : Nat) (w : Width) : BitVec w.bits :=
  match w with
  | .byte => m.read a
  | .word => le16 (m.read a) (m.read (a + 1))

/-- A value of width `w` stored at `a`, little-endian (R33, R35). -/
def Memory.writeAt (m : Memory) (a : Nat) (w : Width) (v : BitVec w.bits) : Memory :=
  match w, v with
  | .byte, v => m.write a v
  | .word, v => (m.write a (lowByte v)).write (a + 1) (highByte v)

/-- An access of `n` bytes at the integer address `a` is in bounds; the address is not reduced first (R31, decision D4). -/
abbrev inBounds (a : Int) (n : Nat) : Prop := 0 ≤ a ∧ a + n ≤ Config.memSize

/-- `MemRead(a, W/8)` (R32). -/
def State.memRead (s : State) (a : Int) (w : Width) : Except Fault (BitVec w.bits) :=
  if inBounds a w.bytes then .ok (s.mem.readAt a.toNat w) else .error .memoryOutOfBounds

/-- `MemWrite(a, W/8, v)`; the check covers every byte before one is written (R33). -/
def State.memWrite (s : State) (a : Int) (w : Width) (v : BitVec w.bits) : Except Fault State :=
  if inBounds a w.bytes then .ok { s with mem := s.mem.writeAt a.toNat w v } else .error .memoryOutOfBounds

/-! ## Faults -/

/-- The cause a fault leaves (R181). -/
def Fault.cause : Fault → Cause
  | .unrecognizedOpcode => .unrecognizedOpcode
  | .memoryOutOfBounds => .memoryOutOfBounds

/-- The code of a cause on the 2-bit output (R181, decision D11). -/
def Cause.code : Cause → BitVec 2
  | .none => 0#2
  | .unrecognizedOpcode => 1#2
  | .memoryOutOfBounds => 2#2

/-- `raise F`: taking a fault. `status` and `cause` are written; registers, flags, memory and `ip` keep the values the step
began with (R182). There is no handler and no return (R186); reset, `State.launch`, is the only way out (R200). -/
def State.raise (s : State) (f : Fault) : State := { s with status := .faulted, cause := f.cause }

/-- The end of a meaning: the state it computed, or the fault it raised, taken from the state the step began with (R92, R182). -/
def State.finish (s : State) (r : Except Fault State) : Result :=
  match r with
  | .ok t => .next t
  | .error f => .next (s.raise f)

/-! ## The instruction pointer, the halt check, the fetch -/

/-- `ip <- (ip + L) mod 2^16` (R19, decision D2). -/
def State.advance (s : State) (len : Nat) : State := { s with ip := s.ip + BitVec.ofNat 16 len }

/-- The halt check, `ip >= PROG_LEN` (R91). -/
def State.atEnd (s : State) : Bool := decide (s.progLen ≤ s.ip.toNat)

/-- The halt check fired: `status <- Halted` and nothing else (R91). -/
def State.halt (s : State) : State := { s with status := .halted }

/-- The six bytes, the longest length, from an address up. -/
def State.bytesAt (s : State) (a : Nat) : List Byte := [0, 1, 2, 3, 4, 5].map fun k => s.mem.read (a + k)

/-- The bytes at `ip` and up; the address `ip + k` is not reduced and not checked (R34, decision D3). -/
def State.fetchBytes (s : State) : List Byte := s.bytesAt s.ip.toNat

/-- The instruction at `ip`, or `UnrecognizedOpcode` (R90, R183). Six bytes are never too few, so of the decoder's errors
only the two unrecognised ones reach here (`decode_six_not_truncated` of Laws). -/
def State.fetch (s : State) : Except Fault Instr :=
  match decode s.fetchBytes with
  | .ok (i, _) => .ok i
  | .error _ => .error .unrecognizedOpcode

/-! ## The host -/

/-- Reset with the host's arguments, from whatever state: the image at address 0, `PROG_LEN` its length, `BRANCH_EXEC` (R200,
R201, R4, R5). The image must fit the memory, `image.length ≤ MEM_SIZE` (R201). -/
def State.launch (be : BranchExec) (image : List Byte) : State :=
  { State.reset with mem := Memory.ofImage 0 image, progLen := image.length, branchExec := be }

/-- The state with six bytes placed at `ip`, running, and with `ip` inside the loaded image: what a step needs to fetch and run
the instruction they hold (R90, R91; notes/assumptions/2.md). -/
def State.withInstrBytes (s : State) (bs : List Byte) : State :=
  { s with
    mem := s.mem.writeBytes s.ip.toNat bs
    status := .running
    cause := .none
    progLen := max s.progLen (s.ip.toNat + bs.length) }

end Sys2Proof.Machine
end

