-- ==== Sys2Proof/Machine/Operands.lean ====
section
/-! DEFINITION. Register operands (spec/10_state.md R13, R14) and the operand resolver (spec/40_step_and_operands.md R95 to R104). -/

namespace Sys2Proof.Machine

/-- A register field value minus 4, for the high byte halves (R12). -/
def highHalf (i : RegField) : RegField := i - 4

/-- `RegRd(i, w)` (R13). -/
def Regs.operand (x : Regs) (i : RegField) (w : Width) : BitVec w.bits :=
  match w with
  | .word => x.read i
  | .byte => if i ≤ 3 then lowByte (x.read i) else highByte (x.read (highHalf i))

/-- `RegWr(i, w, v)`; a byte write leaves the other half of its register (R14). -/
def Regs.setOperand (x : Regs) (i : RegField) (w : Width) (v : BitVec w.bits) : Regs :=
  match w, v with
  | .word, v => x.write i v
  | .byte, v =>
    if i ≤ 3 then x.write i (le16 v (highByte (x.read i)))
    else x.write (highHalf i) (le16 (lowByte (x.read (highHalf i))) v)

/-- A resolved operand: `Reg(i)`, a register field value, or `Mem(a)`, an integer address (R95). -/
inductive Operand where
  | reg (i : RegField)
  | mem (a : Int)
deriving DecidableEq, Repr

/-- `Base(rm)`: the sum of the unsigned register values, an integer (R96). -/
def Base.sum (b : Base) (x : Regs) : Int :=
  match b with
  | .bxSi => (x.read 3).toNat + (x.read 6).toNat
  | .bxDi => (x.read 3).toNat + (x.read 7).toNat
  | .bpSi => (x.read 5).toNat + (x.read 6).toNat
  | .bpDi => (x.read 5).toNat + (x.read 7).toNat
  | .si => (x.read 6).toNat
  | .di => (x.read 7).toNat
  | .bp => (x.read 5).toNat
  | .bx => (x.read 3).toNat

/-- `Resolve`: the operand of `mod`, `rm` and the displacement; the address is not truncated (R95, R97, R98, decision D4). -/
def resolve (rm : Rm) (x : Regs) : Operand :=
  match rm with
  | .reg i => .reg i
  | .direct addr => .mem addr.toNat
  | .base b => .mem (Base.sum b x)
  | .disp8 b d => .mem (Base.sum b x + d.toInt)
  | .disp16 b d => .mem (Base.sum b x + d.toInt)

/-- `OpRd(op, w)` (R100). -/
def State.opRd (s : State) (op : Operand) (w : Width) : Except Fault (BitVec w.bits) :=
  match op with
  | .reg i => .ok (s.x.operand i w)
  | .mem a => s.memRead a w

/-- `OpWr(op, w, v)` (R101). The bounds check stands before the write, so no separate `OpBounds` is needed. -/
def State.opWr (s : State) (op : Operand) (w : Width) (v : BitVec w.bits) : Except Fault State :=
  match op with
  | .reg i => .ok { s with x := s.x.setOperand i w v }
  | .mem a => s.memWrite a w v

/-- The destination of format RM (R103). -/
def Dir.dst (d : Dir) (rmop regop : Operand) : Operand :=
  match d with
  | .regIsSource => rmop
  | .regIsDest => regop

/-- The source of format RM (R103). -/
def Dir.src (d : Dir) (rmop regop : Operand) : Operand :=
  match d with
  | .regIsSource => regop
  | .regIsDest => rmop

/-- The accumulator of forms MA and IA, `Reg(0)`: `al` or `ax` (R102). -/
def accumulator : Operand := .reg 0

/-- The operand value of an immediate of forms IR, IRM and IA, as it stands (R62, R104). -/
def Imm.value (imm : Imm) : BitVec imm.width.bits :=
  match imm with
  | .imm8 v => v
  | .imm16 v => v

/-- The operand value of an immediate of form GRP: sign-extended when `s = 1` and `w = 1` (R62). -/
def GrpImm.value (imm : GrpImm) : BitVec imm.width.bits :=
  match imm with
  | .imm8 v => v
  | .imm16 v => v
  | .imm8s v => v
  | .sext8 v => v.signExtend 16

end Sys2Proof.Machine
end

