-- ==== Sys2Proof/Machine/Flags.lean ====
section
/-! DEFINITION. The arithmetic law, the flag update logic and the body ADD, SUB and CMP share (spec/42_add_sub_cmp.md R130 to R132). -/

namespace Sys2Proof.Machine

/-- `AddW` for ADD and `SubW` for SUB and CMP: wrapping arithmetic at the operand width, `a` the destination (R130). -/
def ArithKind.compute {n : Nat} (k : ArithKind) (a b : BitVec n) : BitVec n :=
  match k with
  | .add => a + b
  | .sub => a - b
  | .cmp => a - b

/-- `SetZS(r, W)`: ZF is "the result is zero", SF its highest bit (R131). -/
def State.setZS {n : Nat} (s : State) (r : BitVec n) : State := { s with zf := r == 0#n, sf := r.msb }

/-- The store of `Arith`: CMP stores nothing (R132). -/
def State.storeResult (s : State) (k : ArithKind) (dst : Operand) (w : Width) (r : BitVec w.bits) : Except Fault State :=
  match k with
  | .add => s.opWr dst w r
  | .sub => s.opWr dst w r
  | .cmp => .ok s

/-- `Arith(kind, dst, b, w)`: read the destination, compute, store unless CMP, set both flags (R132). -/
def State.arith (s : State) (k : ArithKind) (dst : Operand) (w : Width) (b : BitVec w.bits) : Except Fault State :=
  match s.opRd dst w with
  | .error f => .error f
  | .ok a =>
    let r := ArithKind.compute k a b
    match s.storeResult k dst w r with
    | .error f => .error f
    | .ok t => .ok (t.setZS r)

end Sys2Proof.Machine
end

