-- ==== Sys2Proof/Machine/Arith.lean ====
section
/-! DEFINITION. The nine ADD, SUB and CMP instructions (spec/42_add_sub_cmp.md sections 2 to 4). -/

namespace Sys2Proof.Machine

/-- `Arith` with a source value, then past the instruction. -/
def State.arithValue (s : State) (k : ArithKind) (dst : Operand) (w : Width) (b : BitVec w.bits) (len : Nat) :
    Except Fault State :=
  match s.arith k dst w b with
  | .error f => .error f
  | .ok t => .ok (t.advance len)

/-- The body of format RM: the source is read first, then `Arith` (R133, R136, R139). -/
def State.arithRmReg (s : State) (k : ArithKind) (d : Dir) (w : Width) (rm : Rm) (reg : RegField) : Except Fault State :=
  match s.opRd (Dir.src d (resolve rm s.x) (.reg reg)) w with
  | .error f => .error f
  | .ok b => s.arithValue k (Dir.dst d (resolve rm s.x) (.reg reg)) w b (lenRmReg rm)

/-- The body of format GRP (R134, R137, R140). -/
def State.arithRmImm (s : State) (k : ArithKind) (rm : Rm) (imm : GrpImm) : Except Fault State :=
  s.arithValue k (resolve rm s.x) imm.width (GrpImm.value imm) (lenGrp rm imm)

/-- The body of format IA (R135, R138, R141). -/
def State.arithAccImm (s : State) (k : ArithKind) (imm : Imm) : Except Fault State :=
  s.arithValue k accumulator imm.width (Imm.value imm) (lenImm imm)

/-- ADD register/memory with register (R133). -/
def execAddRmReg (d : Dir) (w : Width) (rm : Rm) (reg : RegField) (s : State) : Result :=
  s.finish (s.arithRmReg .add d w rm reg)

/-- ADD immediate to register/memory (R134). -/
def execAddRmImm (rm : Rm) (imm : GrpImm) (s : State) : Result := s.finish (s.arithRmImm .add rm imm)

/-- ADD immediate to accumulator (R135). -/
def execAddAccImm (imm : Imm) (s : State) : Result := s.finish (s.arithAccImm .add imm)

/-- SUB register/memory and register (R136). -/
def execSubRmReg (d : Dir) (w : Width) (rm : Rm) (reg : RegField) (s : State) : Result :=
  s.finish (s.arithRmReg .sub d w rm reg)

/-- SUB immediate from register/memory (R137). -/
def execSubRmImm (rm : Rm) (imm : GrpImm) (s : State) : Result := s.finish (s.arithRmImm .sub rm imm)

/-- SUB immediate from accumulator (R138). -/
def execSubAccImm (imm : Imm) (s : State) : Result := s.finish (s.arithAccImm .sub imm)

/-- CMP register/memory and register (R139). -/
def execCmpRmReg (d : Dir) (w : Width) (rm : Rm) (reg : RegField) (s : State) : Result :=
  s.finish (s.arithRmReg .cmp d w rm reg)

/-- CMP immediate with register/memory (R140). -/
def execCmpRmImm (rm : Rm) (imm : GrpImm) (s : State) : Result := s.finish (s.arithRmImm .cmp rm imm)

/-- CMP immediate with accumulator (R141). -/
def execCmpAccImm (imm : Imm) (s : State) : Result := s.finish (s.arithAccImm .cmp imm)

end Sys2Proof.Machine
end

