-- ==== Sys2Proof/Machine/Branch.lean ====
section
/-! DEFINITION. The sixteen conditional jumps, the three loops and JCXZ (spec/43_branch_loop.md). -/

namespace Sys2Proof.Machine

/-- `Branch(cond, none)`: `ip` goes past the two bytes, and by the signed displacement more when taken (R150). -/
def State.branch (s : State) (taken : Bool) (disp : Byte) : State :=
  if taken then { s with ip := s.ip + 2#16 + disp.signExtend 16 } else s.advance lenJ

/-- `cx`, that is `x[1]` (R11, R15). -/
def State.cx (s : State) : Word := s.x.read 1

/-- The `pre` of the loops: `cx <- (cx - 1) mod 2^16`, no flag written (R151). -/
def State.decCx (s : State) : State := { s with x := s.x.write 1 (s.cx - 1#16) }

/-- `BRANCH_EXEC = extended` (R5). -/
def State.isExtended (s : State) : Bool := s.branchExec == .extended

/-- A loop: under `extended`, `cx` is decremented and the condition is tested on the decremented value; under `jnz_only` it is
never taken and `cx` is kept (R151). -/
def State.loopWhen (s : State) (flagOk : Bool) (disp : Byte) : State :=
  match s.branchExec with
  | .jnzOnly => s.branch false disp
  | .extended => s.decCx.branch (s.decCx.cx != 0#16 && flagOk) disp

/-- `jo`: never taken (R152). -/
def execJo (disp : Byte) (s : State) : Result := .next (s.branch false disp)

/-- `jno`: never taken (R153). -/
def execJno (disp : Byte) (s : State) : Result := .next (s.branch false disp)

/-- `jb`: never taken (R154). -/
def execJb (disp : Byte) (s : State) : Result := .next (s.branch false disp)

/-- `jnb`: never taken (R155). -/
def execJnb (disp : Byte) (s : State) : Result := .next (s.branch false disp)

/-- `je`: under `extended`, taken when `ZF = 1` (R156). -/
def execJe (disp : Byte) (s : State) : Result := .next (s.branch (s.isExtended && s.zf) disp)

/-- `jnz`: taken when `ZF = 0`, under both settings (R157). -/
def execJnz (disp : Byte) (s : State) : Result := .next (s.branch (!s.zf) disp)

/-- `jbe`: never taken (R158). -/
def execJbe (disp : Byte) (s : State) : Result := .next (s.branch false disp)

/-- `ja`: never taken (R159). -/
def execJa (disp : Byte) (s : State) : Result := .next (s.branch false disp)

/-- `js`: under `extended`, taken when `SF = 1` (R160). -/
def execJs (disp : Byte) (s : State) : Result := .next (s.branch (s.isExtended && s.sf) disp)

/-- `jns`: under `extended`, taken when `SF = 0` (R161). -/
def execJns (disp : Byte) (s : State) : Result := .next (s.branch (s.isExtended && !s.sf) disp)

/-- `jp`: never taken (R162). -/
def execJp (disp : Byte) (s : State) : Result := .next (s.branch false disp)

/-- `jnp`: never taken (R163). -/
def execJnp (disp : Byte) (s : State) : Result := .next (s.branch false disp)

/-- `jl`: never taken (R164). -/
def execJl (disp : Byte) (s : State) : Result := .next (s.branch false disp)

/-- `jnl`: never taken (R165). -/
def execJnl (disp : Byte) (s : State) : Result := .next (s.branch false disp)

/-- `jle`: never taken (R166). -/
def execJle (disp : Byte) (s : State) : Result := .next (s.branch false disp)

/-- `jg`: never taken (R167). -/
def execJg (disp : Byte) (s : State) : Result := .next (s.branch false disp)

/-- `loopnz`: under `extended`, taken when the decremented `cx` is not 0 and `ZF = 0` (R170). -/
def execLoopnz (disp : Byte) (s : State) : Result := .next (s.loopWhen (!s.zf) disp)

/-- `loopz`: under `extended`, taken when the decremented `cx` is not 0 and `ZF = 1` (R171). -/
def execLoopz (disp : Byte) (s : State) : Result := .next (s.loopWhen s.zf disp)

/-- `loop`: under `extended`, taken when the decremented `cx` is not 0 (R172). -/
def execLoop (disp : Byte) (s : State) : Result := .next (s.loopWhen true disp)

/-- `jcxz`: under `extended`, taken when `cx = 0`; `cx` is never changed (R173). -/
def execJcxz (disp : Byte) (s : State) : Result := .next (s.branch (s.isExtended && s.cx == 0#16) disp)

end Sys2Proof.Machine
end

