-- ==== Sys2Proof/Machine/Mov.lean ====
section
/-! DEFINITION. The five MOV instructions (spec/41_mov.md). -/

namespace Sys2Proof.Machine

/-- Copy a value into an operand and go on past the instruction; no flag is written (R125). -/
def State.moveTo (s : State) (dst : Operand) (w : Width) (v : BitVec w.bits) (len : Nat) : Except Fault State :=
  match s.opWr dst w v with
  | .error f => .error f
  | .ok t => .ok (t.advance len)

/-- Copy one operand into another and go on past the instruction (R125). -/
def State.move (s : State) (dst src : Operand) (w : Width) (len : Nat) : Except Fault State :=
  match s.opRd src w with
  | .error f => .error f
  | .ok v => s.moveTo dst w v len

/-- MOV register/memory to/from register (R120). -/
def execMovRmReg (d : Dir) (w : Width) (rm : Rm) (reg : RegField) (s : State) : Result :=
  s.finish (s.move (Dir.dst d (resolve rm s.x) (.reg reg)) (Dir.src d (resolve rm s.x) (.reg reg)) w (lenRmReg rm))

/-- MOV immediate to register/memory; byte 1 bits [5:3] decide nothing (R121, R67). -/
def execMovRmImm (_ign : BitVec 3) (rm : Rm) (imm : Imm) (s : State) : Result :=
  s.finish (s.moveTo (resolve rm s.x) imm.width (Imm.value imm) (lenIrm rm imm))

/-- MOV immediate to register (R122). -/
def execMovRegImm (reg : RegField) (imm : Imm) (s : State) : Result :=
  s.finish (s.moveTo (.reg reg) imm.width (Imm.value imm) (lenImm imm))

/-- MOV memory to accumulator (R123). -/
def execMovAccMem (w : Width) (addr : Word) (s : State) : Result :=
  s.finish (s.move accumulator (.mem addr.toNat) w lenMa)

/-- MOV accumulator to memory (R124). -/
def execMovMemAcc (w : Width) (addr : Word) (s : State) : Result :=
  s.finish (s.move (.mem addr.toNat) accumulator w lenMa)

end Sys2Proof.Machine
end

