-- ==== Sys2Proof/Machine/Step.lean ====
section
/-! DEFINITION. One step of the core (spec/40_step_and_operands.md R90). -/

namespace Sys2Proof.Machine

/-- `Step()`: terminal states are sticky; then the halt check; then fetch and decode; then the instruction (R90, R91, R21). -/
def step (s : State) : Host.Outcome State Fault Refusal :=
  match s.status with
  | .halted => .next s
  | .faulted => .next s
  | .running =>
    if s.atEnd then .next s.halt
    else
      match s.fetch with
      | .ok i => exec i s
      | .error f => .next (s.raise f)

/-- The state in which the very next step runs the instruction of a table word (notes/assumptions/2.md, notes/assumptions/14.md). -/
def State.withFetchWord (s : State) (nbits w : Nat) : State := s.withInstrBytes (tableWordBytes nbits w)

end Sys2Proof.Machine
end

