-- ==== Sys2Proof/Safety.lean ====
section
/-! DEFINITION. What holds of every state of a run, and what counts as a completed run. -/

namespace Sys2Proof.Machine

/-- The invariant of the core. -/
structure State.Inv (s : State) : Prop where
  /-- Memory keeps its canonical form, so equal memories are equal data. -/
  memWf : s.mem.wf
  /-- The image fits the memory (R4, R201). -/
  fits : s.progLen ≤ Config.memSize
  /-- `ZF` and `SF` are never both 1 (R131, R207). -/
  flags : ¬(s.zf = true ∧ s.sf = true)
  /-- `cause` is `None` exactly while the core is not `Faulted` (R21). -/
  causeIff : s.cause = .none ↔ s.status ≠ .faulted
  /-- The core is `Halted` only at or beyond the end of the image (R203). -/
  haltedAtEnd : s.status = .halted → s.progLen ≤ s.ip.toNat

/-- A completed run: `Halted` is the only final state that is a result (R192). -/
def State.completed (s : State) : Prop := s.status = .halted

end Sys2Proof.Machine
end

