-- ==== Sys2Proof/Certificates/Slice0/Obligations.lean ====
section
/-! DEFINITION. The statements for the provers. The words they are written in come first, under Sys2Proof.Claims: they say, in
integers and bytes of memory, what the rules of spec/ say in pseudocode. A docstring names the rule; where a clause is a decision
of the spec (D<n>) or of this model (notes/assumptions/<n>.md) and not the source's, it says so. -/

namespace Sys2Proof.Claims

open Sys2Proof.Machine

/-- The next step fetches: running, with `ip` inside the image (R90, R91). -/
def Ready (s : State) : Prop := s.status = .running ∧ s.ip.toNat < s.progLen

/-- Byte `k` of the instruction at `ip`, `Fetch8(ip + k)` (R34). -/
def code (s : State) (k : Nat) : Byte := s.mem.read (s.ip.toNat + k)

/-- The 16-bit value at byte `k` of the instruction, `Fetch16(ip + k)` (R34, R35). -/
def code16 (s : State) (k : Nat) : Word := BitVec.ofNat 16 (256 * (code s (k + 1)).toNat + (code s k).toNat)

/-- `(ip + n) mod 2^16` for an integer `n` (R19). -/
def ipPlus (s : State) (n : Int) : Word := BitVec.ofInt 16 ((s.ip.toNat : Int) + n)

/-- The width of a `w` bit. -/
def width (w : Bool) : Width := if w then .word else .byte

/-- `Base(rm)` (R96). -/
def baseAt (x : Regs) (rm : BitVec 3) : Int :=
  if rm = 0b000#3 then (x.read 3).toNat + (x.read 6).toNat
  else if rm = 0b001#3 then (x.read 3).toNat + (x.read 7).toNat
  else if rm = 0b010#3 then (x.read 5).toNat + (x.read 6).toNat
  else if rm = 0b011#3 then (x.read 5).toNat + (x.read 7).toNat
  else if rm = 0b100#3 then (x.read 6).toNat
  else if rm = 0b101#3 then (x.read 7).toNat
  else if rm = 0b110#3 then (x.read 5).toNat
  else (x.read 3).toNat

/-- The operand of `Resolve(mod, rm, w, ip + 2)` (R95, R97, R98). -/
def operandAt (s : State) (mod : BitVec 2) (rm : BitVec 3) : Operand :=
  if mod = 0b11#2 then .reg rm.toFin
  else if mod = 0b00#2 ∧ rm = 0b110#3 then .mem (code16 s 2).toNat
  else if mod = 0b00#2 then .mem (baseAt s.x rm)
  else if mod = 0b01#2 then .mem (baseAt s.x rm + (code s 2).toInt)
  else .mem (baseAt s.x rm + (code16 s 2).toInt)

/-- The displacement bytes `Resolve` consumes (R61, R95). -/
def dispAt (mod : BitVec 2) (rm : BitVec 3) : Nat :=
  if mod = 0b11#2 then 0
  else if mod = 0b00#2 ∧ rm = 0b110#3 then 2
  else if mod = 0b00#2 then 0
  else if mod = 0b01#2 then 1
  else 2

/-- An immediate of forms IR, IRM and IA at byte `k` (R62, R104). -/
def immAt (s : State) (w : Bool) (k : Nat) : BitVec (width w).bits :=
  match w with
  | false => code s k
  | true => code16 s k

/-- An immediate of form GRP at byte `k`: sign-extended when `s` and `w` are 1 (R62). -/
def grpImmAt (s : State) (sx w : Bool) (k : Nat) : BitVec (width w).bits :=
  match w, sx with
  | false, _ => code s k
  | true, false => code16 s k
  | true, true => BitVec.ofInt 16 (code s k).toInt

/-- The size in bytes of an immediate of form GRP: 2 if `s = 0` and `w = 1`, else 1 (R62). -/
def grpImmLen (sx w : Bool) : Nat := if sx = false ∧ w = true then 2 else 1

/-- A register operand, or a memory operand whose address is not negative: the operands that can be accessed (R184). -/
def Accessible (op : Operand) : Prop := ∀ a, op = .mem a → 0 ≤ a

/-- The value of an accessible operand (R100). -/
def getOperand (s : State) (op : Operand) (w : Width) : BitVec w.bits :=
  match op with
  | .reg i => s.x.operand i w
  | .mem a => s.mem.readAt a.toNat w

/-- The state after writing an accessible operand (R101). -/
def putOperand (s : State) (op : Operand) (w : Width) (v : BitVec w.bits) : State :=
  match op with
  | .reg i => { s with x := s.x.setOperand i w v }
  | .mem a => { s with mem := s.mem.writeAt a.toNat w v }

/-- The state after `raise MemoryOutOfBounds`: only `status` and `cause` change (R182). -/
def raisedOutOfBounds (s : State) : State := { s with status := .faulted, cause := .memoryOutOfBounds }

/-- `AddW` or `SubW`, computed in the integers and reduced `mod 2^W` (R130). -/
def arithResult {n : Nat} (k : ArithKind) (a b : BitVec n) : BitVec n :=
  match k with
  | .add => BitVec.ofNat n (a.toNat + b.toNat)
  | .sub => BitVec.ofInt n ((a.toNat : Int) - b.toNat)
  | .cmp => BitVec.ofInt n ((a.toNat : Int) - b.toNat)

/-- The state after `Arith` on an accessible operand: the result stored unless CMP, both flags set from it (R131, R132). -/
def arithAfter (s : State) (k : ArithKind) (dst : Operand) (w : Width) (b : BitVec w.bits) : State :=
  let r := arithResult k (getOperand s dst w) b
  { (if k = .cmp then s else putOperand s dst w r) with
    zf := decide (r.toNat = 0)
    sf := r.getLsbD (w.bits - 1) }

/-- The six opcode bits of ADD, SUB and CMP in format RM (R133, R136, R139). -/
def opcodeRm : ArithKind → BitVec 6
  | .add => 0b000000#6
  | .sub => 0b001010#6
  | .cmp => 0b001110#6

/-- The selector of ADD, SUB and CMP in format GRP (R134, R137, R140). -/
def selector : ArithKind → BitVec 3
  | .add => 0b000#3
  | .sub => 0b101#3
  | .cmp => 0b111#3

/-- The seven opcode bits of ADD, SUB and CMP in format IA (R135, R138, R141). -/
def opcodeAcc : ArithKind → BitVec 7
  | .add => 0b0000010#7
  | .sub => 0b0010110#7
  | .cmp => 0b0011110#7

/-- The state after a jump at `ip` with its displacement in byte 1 (R150). -/
def jumped (s : State) (taken : Prop) [Decidable taken] : State :=
  { s with ip := if taken then ipPlus s (2 + (code s 1).toInt) else ipPlus s 2 }

/-- `(cx - 1) mod 2^16` (R151). -/
def cxLess (s : State) : Word := BitVec.ofInt 16 (((s.x.read 1).toNat : Int) - 1)

/-- The state with `cx` decremented (R151). -/
def cxDecremented (s : State) : State := { s with x := s.x.write 1 (cxLess s) }

/-- The loops (R170 to R172). -/
def isLoop : Jump → Bool
  | .loop => true
  | .loopz => true
  | .loopnz => true
  | _ => false

/-- The column of R151 for a setting: whether a jump is taken, `cx` being its value after the decrement of a loop. -/
def taken (be : BranchExec) (j : Jump) (zf sf : Bool) (cx : Word) : Prop :=
  (j = .jnz ∧ zf = false) ∨
  (be = .extended ∧
    ((j = .je ∧ zf = true) ∨ (j = .js ∧ sf = true) ∨ (j = .jns ∧ sf = false) ∨
     (j = .loop ∧ cx.toNat ≠ 0) ∨ (j = .loopz ∧ cx.toNat ≠ 0 ∧ zf = true) ∨
     (j = .loopnz ∧ cx.toNat ≠ 0 ∧ zf = false) ∨ (j = .jcxz ∧ cx.toNat = 0)))

/-- The bytes of R65, the byte 0 values that are recognised. -/
def Recognised (b : Byte) : Prop :=
  b.toNat ≤ 0x05 ∨ (0x28 ≤ b.toNat ∧ b.toNat ≤ 0x2D) ∨ (0x38 ≤ b.toNat ∧ b.toNat ≤ 0x3D) ∨
  (0x70 ≤ b.toNat ∧ b.toNat ≤ 0x7F) ∨ (0x80 ≤ b.toNat ∧ b.toNat ≤ 0x83) ∨ (0x88 ≤ b.toNat ∧ b.toNat ≤ 0x8B) ∨
  (0xA0 ≤ b.toNat ∧ b.toNat ≤ 0xA3) ∨ (0xB0 ≤ b.toNat ∧ b.toNat ≤ 0xBF) ∨ b.toNat = 0xC6 ∨ b.toNat = 0xC7 ∨
  (0xE0 ≤ b.toNat ∧ b.toNat ≤ 0xE3)

/-- The `mod`/`rm` operand of an instruction of forms RM, IRM and GRP. -/
def rmOf : Instr → Option Rm
  | .movRmReg _ _ rm _ => some rm
  | .movRmImm _ rm _ => some rm
  | .addRmReg _ _ rm _ => some rm
  | .addRmImm rm _ => some rm
  | .subRmReg _ _ rm _ => some rm
  | .subRmImm rm _ => some rm
  | .cmpRmReg _ _ rm _ => some rm
  | .cmpRmImm rm _ => some rm
  | _ => none

/-- An indexed operand, `mod = 01` or `10`, whose effective address is negative (R184). -/
def NegativeAddress (rm : Rm) (x : Regs) : Prop :=
  (∃ b d, rm = .disp8 b d ∧ baseAt x b.field + d.toInt < 0) ∨ (∃ b d, rm = .disp16 b d ∧ baseAt x b.field + d.toInt < 0)

/-- The operand an instruction writes its result to, and the width: MOV, ADD and SUB have one, CMP and the jumps have none. -/
def dest (i : Instr) (x : Regs) : Option (Operand × Width) :=
  match i with
  | .movRmReg d w rm reg => some (Dir.dst d (resolve rm x) (.reg reg), w)
  | .movRmImm _ rm imm => some (resolve rm x, imm.width)
  | .movRegImm reg imm => some (.reg reg, imm.width)
  | .movAccMem w _ => some (.reg 0, w)
  | .movMemAcc w addr => some (.mem addr.toNat, w)
  | .addRmReg d w rm reg => some (Dir.dst d (resolve rm x) (.reg reg), w)
  | .addRmImm rm imm => some (resolve rm x, imm.width)
  | .addAccImm imm => some (.reg 0, imm.width)
  | .subRmReg d w rm reg => some (Dir.dst d (resolve rm x) (.reg reg), w)
  | .subRmImm rm imm => some (resolve rm x, imm.width)
  | .subAccImm imm => some (.reg 0, imm.width)
  | _ => none

/-- The general register a register operand lives in (R12). -/
def holder (i : RegField) (w : Width) : RegField := if w = .byte ∧ 4 ≤ i.val then i - 4 else i

/-- The instructions that write the flags: ADD, SUB, CMP (R17). -/
def writesFlags : Instr → Bool
  | .addRmReg _ _ _ _ => true
  | .addRmImm _ _ => true
  | .addAccImm _ => true
  | .subRmReg _ _ _ _ => true
  | .subRmImm _ _ => true
  | .subAccImm _ => true
  | .cmpRmReg _ _ _ _ => true
  | .cmpRmImm _ _ => true
  | .cmpAccImm _ => true
  | _ => false

/-- The instructions that decrement `cx` under `extended`: the loops (R151). -/
def decrementsCx : Instr → Bool
  | .loop _ => true
  | .loopz _ => true
  | .loopnz _ => true
  | _ => false

/-- The displacement of an instruction of format J. -/
def jumpDisp : Instr → Option Byte
  | .jo d => some d
  | .jno d => some d
  | .jb d => some d
  | .jnb d => some d
  | .je d => some d
  | .jnz d => some d
  | .jbe d => some d
  | .ja d => some d
  | .js d => some d
  | .jns d => some d
  | .jp d => some d
  | .jnp d => some d
  | .jl d => some d
  | .jnl d => some d
  | .jle d => some d
  | .jg d => some d
  | .loopnz d => some d
  | .loopz d => some d
  | .loop d => some d
  | .jcxz d => some d
  | _ => none

end Sys2Proof.Claims

open Sys2Proof Sys2Proof.Machine Sys2Proof.Claims

/-! ## Encoding -/

/-- The words the source prints, and words written out from the encodings of the other forms, decode to the instructions they
stand for (30_encoding.md section 3; the bytes other than 89 D9 and B0 05 are notes/assumptions/13.md). -/
def Obligations.SpecWordsDecode : Prop :=
  decode [0x89#8, 0xD9#8] = .ok (.movRmReg .regIsSource .word (.reg 1) 3, []) ∧
  decode [0xB0#8, 0x05#8] = .ok (.movRegImm 0 (.imm8 5#8), []) ∧
  decode [0xC7#8, 0x06#8, 0xE8#8, 0x03#8, 0x05#8, 0x00#8] = .ok (.movRmImm 0#3 (.direct 1000#16) (.imm16 5#16), []) ∧
  decode [0x83#8, 0xE9#8, 0x01#8, 0x75#8] = .ok (.subRmImm (.reg 1) (.sext8 1#8), [0x75#8]) ∧
  decode [0x75#8, 0xFB#8] = .ok (.jnz 0xFB#8, [])

/-- Decoding an encoded well-formed instruction gives it back, whatever bytes follow: all 34 instructions, every operand
(R50 to R63, R70). -/
def Obligations.DecodeOfEncode : Prop :=
  ∀ (i : Instr) (rest : List Byte), i.wf = true → decode (encode i ++ rest) = .ok (i, rest)

/-- Whatever decodes is well formed, and its encoding is exactly the bytes consumed: no two byte sequences decode to one term, and
no bit is dropped (R50, R64, R67, R70). That the term keeps the bits R67 ignores is the model's choice (notes/assumptions/10.md). -/
def Obligations.EncodeOfDecode : Prop :=
  ∀ (bs rest : List Byte) (i : Instr), decode bs = .ok (i, rest) → i.wf = true ∧ encode i ++ rest = bs

/-- `Resolve` on the bytes after the addressing byte: the operand and the number of bytes consumed for every `mod` and `rm`. -/
def Obligations.ResolveRule : Prop :=
  ∀ (s : State) (mod : BitVec 2) (rm : BitVec 3),
    ∃ r rest, decodeRm mod rm [code s 2, code s 3, code s 4, code s 5] = .ok (r, rest) ∧
      resolve r s.x = operandAt s mod rm ∧ rest.length + dispAt mod rm = 4

/-! ## The step -/

/-- A step: a stopped core is unchanged (decision D14); at or beyond the end of the image it halts (decision D12); else it runs
the decoded instruction at `ip`, or raises `UnrecognizedOpcode` if the six bytes there decode to none (R90, R91, R182). -/
def Obligations.StepRunsDecodedInstruction : Prop :=
  ∀ s : State,
    (s.status ≠ .running → step s = .next s) ∧
    (s.status = .running → s.progLen ≤ s.ip.toNat → step s = .next { s with status := .halted }) ∧
    (∀ i rest, Ready s → decode [code s 0, code s 1, code s 2, code s 3, code s 4, code s 5] = .ok (i, rest) →
      step s = exec i s) ∧
    (∀ e, Ready s → decode [code s 0, code s 1, code s 2, code s 3, code s 4, code s 5] = .error e →
      step s = .next { s with status := .faulted, cause := .unrecognizedOpcode })

/-- Wherever memory at `ip` holds the encoding of a well-formed instruction, a step is that instruction (R50, R90). -/
def Obligations.StepRunsEncodedInstruction : Prop :=
  ∀ (s : State) (i : Instr), i.wf = true → Ready s → (∀ k b, (encode i)[k]? = some b → code s k = b) → step s = exec i s

/-- The core is never without an answer: every step of every state is a next state, so the model stops on no instruction and
on no byte (R6, R182; that a fault is a next state is notes/assumptions/4.md). -/
def Obligations.StepAlwaysAnswersNext : Prop := ∀ s : State, ∃ t, step s = .next t

/-- The core halts exactly when `ip >= PROG_LEN`, so never with an image of 65 536 bytes or more (R91, decision D12). -/
def Obligations.HaltsExactlyAtEnd : Prop :=
  ∀ s t : State, s.status = .running → step s = .next t →
    (t.status = .halted ↔ s.progLen ≤ s.ip.toNat) ∧ (65536 ≤ s.progLen → t.status ≠ .halted)

/-- `ip` changes in one of three ways: not at all, past the instruction, or by a jump's displacement more (R94, decision D2). -/
def Obligations.InstructionPointerThreeWays : Prop :=
  ∀ s t : State, step s = .next t →
    t.ip = s.ip ∨
    ∃ i rest, decode [code s 0, code s 1, code s 2, code s 3, code s 4, code s 5] = .ok (i, rest) ∧
      (t.ip = ipPlus s i.length ∨ ∃ d, jumpDisp i = some d ∧ t.ip = ipPlus s (2 + d.toInt))

/-! ## Reset and the invariant -/

/-- After reset with an image that fits: registers and flags zero, `ip` 0, the image at 0 and zeros elsewhere, running, no cause
(R23, R200, R201; all but `ip` and the image are decisions D1 and D14); `State.reset` is the reset with the empty image and the
default `BRANCH_EXEC` (notes/assumptions/2.md). -/
def Obligations.LaunchLoadsImage : Prop :=
  State.reset = State.launch .jnzOnly [] ∧
  ∀ (be : BranchExec) (image : List Byte), image.length ≤ Config.memSize →
    (∀ a b, image[a]? = some b → (State.launch be image).mem.read a = b) ∧
    (∀ a, image.length ≤ a → (State.launch be image).mem.read a = 0#8) ∧
    (∀ r, (State.launch be image).x.read r = 0#16) ∧
    (State.launch be image).zf = false ∧ (State.launch be image).sf = false ∧ (State.launch be image).ip = 0#16 ∧
    (State.launch be image).status = .running ∧ (State.launch be image).cause = .none ∧
    (State.launch be image).progLen = image.length ∧ (State.launch be image).branchExec = be

/-- The invariant holds at reset, with no image and with every image that fits (R23, R201). -/
def Obligations.InvariantAtReset : Prop :=
  State.reset.Inv ∧ ∀ (be : BranchExec) (image : List Byte), image.length ≤ Config.memSize → (State.launch be image).Inv

/-- Every step keeps the invariant, from every state that meets it: memory canonical and within 2^20 bytes, `PROG_LEN` within the
memory, `ZF` and `SF` never both 1, `cause` none exactly while not faulted, halted only at the end (R20, R21, R131, R203). -/
def Obligations.StepKeepsInvariant : Prop := ∀ s t : State, s.Inv → step s = .next t → t.Inv

/-! ## Faults -/

/-- A step raises `UnrecognizedOpcode` exactly on the two grounds of R183: byte 0 is not one of the recognised values, or byte 0
is 0x80 to 0x83 and byte 1 bits [5:3] are not 000, 101 or 111; all other state is kept, and it is fatal: no later step changes
anything. -/
def Obligations.UnrecognizedOpcodeExactly : Prop :=
  ∀ s t : State, Ready s → step s = .next t →
    ((t.status = .faulted ∧ t.cause = .unrecognizedOpcode) ↔
      (¬ Recognised (code s 0) ∨
        (0x80 ≤ (code s 0).toNat ∧ (code s 0).toNat ≤ 0x83 ∧
          ∀ (mod : BitVec 2) (rm : BitVec 3),
            code s 1 ≠ mod ++ 0b000#3 ++ rm ∧ code s 1 ≠ mod ++ 0b101#3 ++ rm ∧ code s 1 ≠ mod ++ 0b111#3 ++ rm))) ∧
    (t.status = .faulted → t.cause = .unrecognizedOpcode →
      t = { s with status := .faulted, cause := .unrecognizedOpcode } ∧ step t = .next t)

/-- A step raises `MemoryOutOfBounds` in exactly one situation: the instruction is one of the eight of forms RM, IRM and GRP with
`mod` 01 or 10, and its effective address is negative (R184). -/
def Obligations.MemoryOutOfBoundsExactly : Prop :=
  ∀ s t : State, Ready s → step s = .next t →
    ((t.status = .faulted ∧ t.cause = .memoryOutOfBounds) ↔
      ∃ i rest rm, decode [code s 0, code s 1, code s 2, code s 3, code s 4, code s 5] = .ok (i, rest) ∧
        rmOf i = some rm ∧ NegativeAddress rm s.x)

/-- Each of the eight instructions with a `mod`/`rm` operand traps on a negative effective address, in every form: only `status`
and `cause` change (60_exceptions.md sections 1 and 2; decisions D4, D11). -/
def Obligations.NegativeAddressTraps : Prop :=
  ∀ (i : Instr) (rm : Rm) (s : State), rmOf i = some rm → NegativeAddress rm s.x → exec i s = .next (raisedOutOfBounds s)

/-- Faults are precise: a step of a running core that ends `Faulted` has changed `status` and `cause` only (R182, decision D11). -/
def Obligations.FaultsArePrecise : Prop :=
  ∀ s t : State, s.status = .running → step s = .next t → t.status = .faulted →
    (t.cause = .unrecognizedOpcode ∨ t.cause = .memoryOutOfBounds) ∧ t = { s with status := .faulted, cause := t.cause }

/-! ## Registers and memory -/

/-- A register operand is the whole register at width 16; at width 8 field values 0 to 3 are the low bytes and 4 to 7 the high
bytes of `x[0]` to `x[3]`; a byte write keeps the other half, and no write touches another register (R12 to R14; decision D18). -/
def Obligations.RegisterOperandHalves : Prop :=
  ∀ (x : Regs) (r j : RegField),
    x.operand r .word = x.read r ∧
    (∀ v, (x.setOperand r .word v).read j = if j = r then v else x.read j) ∧
    (r.val < 4 →
      (x.operand r .byte).toNat = (x.read r).toNat % 256 ∧
      (x.operand (r + 4) .byte).toNat = (x.read r).toNat / 256 ∧
      (∀ v : Byte, ((x.setOperand r .byte v).read j).toNat =
        if j = r then 256 * ((x.read r).toNat / 256) + v.toNat else (x.read j).toNat) ∧
      (∀ v : Byte, ((x.setOperand (r + 4) .byte v).read j).toNat =
        if j = r then 256 * v.toNat + (x.read r).toNat % 256 else (x.read j).toNat))

/-- `MemRead(a, n)`: out of bounds it raises; one byte is `MEM[a]`, two bytes are little-endian, at any alignment (R32). -/
def Obligations.MemReadRule : Prop :=
  ∀ (s : State) (a : Int),
    ((a < 0 ∨ 1048576 < a + 1) → s.memRead a .byte = .error .memoryOutOfBounds) ∧
    ((a < 0 ∨ 1048576 < a + 2) → s.memRead a .word = .error .memoryOutOfBounds) ∧
    (0 ≤ a → a + 1 ≤ 1048576 → s.memRead a .byte = .ok (s.mem.read a.toNat)) ∧
    (0 ≤ a → a + 2 ≤ 1048576 →
      s.memRead a .word = .ok (BitVec.ofNat 16 (256 * (s.mem.read (a.toNat + 1)).toNat + (s.mem.read a.toNat).toNat)))

/-- `MemWrite(a, n, v)`: out of bounds it raises and gives no state with a byte written; in bounds the addressed bytes and nothing
else change, the low byte at `a`, and the memory keeps its canonical form (R33). -/
def Obligations.MemWriteRule : Prop :=
  ∀ (s : State) (a : Int) (b : Byte) (v : Word),
    ((a < 0 ∨ 1048576 < a + 1) → s.memWrite a .byte b = .error .memoryOutOfBounds) ∧
    ((a < 0 ∨ 1048576 < a + 2) → s.memWrite a .word v = .error .memoryOutOfBounds) ∧
    (0 ≤ a → a + 1 ≤ 1048576 → ∃ m, s.memWrite a .byte b = .ok { s with mem := m } ∧ (s.mem.wf → m.wf) ∧
      ∀ c : Nat, m.read c = if (c : Int) = a then b else s.mem.read c) ∧
    (0 ≤ a → a + 2 ≤ 1048576 → ∃ m, s.memWrite a .word v = .ok { s with mem := m } ∧ (s.mem.wf → m.wf) ∧
      ∀ c : Nat, m.read c =
        if (c : Int) = a then BitVec.ofNat 8 (v.toNat % 256)
        else if (c : Int) = a + 1 then BitVec.ofNat 8 (v.toNat / 256) else s.mem.read c)

/-- No step changes a byte at 0x27FFF or above, since no effective address reaches there (R39, decision D4). -/
def Obligations.HighMemoryUntouched : Prop :=
  ∀ (s t : State) (a : Nat), 0x27FFF ≤ a → step s = .next t → t.mem.read a = s.mem.read a

/-! ## MOV -/

/-- MOV register/memory to/from register, from its bytes (R120). -/
def Obligations.MovRmRegFromBytes : Prop :=
  ∀ (s : State) (d w : Bool) (mod : BitVec 2) (reg rm : BitVec 3), Ready s →
    code s 0 = 0b100010#6 ++ BitVec.ofBool d ++ BitVec.ofBool w → code s 1 = mod ++ reg ++ rm →
    let rmop := operandAt s mod rm
    let dst : Operand := if d then .reg reg.toFin else rmop
    let src : Operand := if d then rmop else .reg reg.toFin
    (Accessible rmop →
      step s = .next { putOperand s dst (width w) (getOperand s src (width w)) with ip := ipPlus s (2 + dispAt mod rm) }) ∧
    (¬ Accessible rmop → step s = .next (raisedOutOfBounds s))

/-- MOV immediate to register/memory, from its bytes; byte 1 bits [5:3] may be anything (R121, R67). -/
def Obligations.MovRmImmFromBytes : Prop :=
  ∀ (s : State) (w : Bool) (mod : BitVec 2) (ign rm : BitVec 3), Ready s →
    code s 0 = 0b1100011#7 ++ BitVec.ofBool w → code s 1 = mod ++ ign ++ rm →
    let dst := operandAt s mod rm
    let n := dispAt mod rm
    (Accessible dst →
      step s = .next { putOperand s dst (width w) (immAt s w (2 + n)) with ip := ipPlus s (2 + n + (width w).bytes) }) ∧
    (¬ Accessible dst → step s = .next (raisedOutOfBounds s))

/-- MOV immediate to register, from its bytes: never a fault (R122). -/
def Obligations.MovRegImmFromBytes : Prop :=
  ∀ (s : State) (w : Bool) (reg : BitVec 3), Ready s → code s 0 = 0b1011#4 ++ BitVec.ofBool w ++ reg →
    step s = .next { s with
      x := s.x.setOperand reg.toFin (width w) (immAt s w 1)
      ip := ipPlus s (1 + (width w).bytes) }

/-- MOV memory to accumulator, from its bytes: never a fault, the address two bytes whatever `w` (R123). -/
def Obligations.MovAccMemFromBytes : Prop :=
  ∀ (s : State) (w : Bool), Ready s → code s 0 = 0b1010000#7 ++ BitVec.ofBool w →
    step s = .next { s with
      x := s.x.setOperand 0 (width w) (s.mem.readAt (code16 s 1).toNat (width w))
      ip := ipPlus s 3 }

/-- MOV accumulator to memory, from its bytes: never a fault (R124). -/
def Obligations.MovMemAccFromBytes : Prop :=
  ∀ (s : State) (w : Bool), Ready s → code s 0 = 0b1010001#7 ++ BitVec.ofBool w →
    step s = .next { s with
      mem := s.mem.writeAt (code16 s 1).toNat (width w) (s.x.operand 0 (width w))
      ip := ipPlus s 3 }

/-- The five MOV instructions complete wherever their operand is accessible: movRmReg, movRmImm, movRegImm, movAccMem, movMemAcc
(41_mov.md; `ip` by decision D2). -/
def Obligations.MovCompletes : Prop :=
  ∀ s : State,
    (∀ d w rm reg, Accessible (resolve rm s.x) →
      exec (.movRmReg d w rm reg) s = .next { putOperand s (Dir.dst d (resolve rm s.x) (.reg reg)) w
        (getOperand s (Dir.src d (resolve rm s.x) (.reg reg)) w) with ip := ipPlus s (2 + rm.dispLen) }) ∧
    (∀ ign rm imm, Accessible (resolve rm s.x) →
      exec (.movRmImm ign rm imm) s = .next { putOperand s (resolve rm s.x) imm.width (Imm.value imm) with
        ip := ipPlus s (2 + rm.dispLen + imm.width.bytes) }) ∧
    (∀ reg imm, exec (.movRegImm reg imm) s = .next { s with
      x := s.x.setOperand reg imm.width (Imm.value imm)
      ip := ipPlus s (1 + imm.width.bytes) }) ∧
    (∀ w addr, exec (.movAccMem w addr) s = .next { s with
      x := s.x.setOperand 0 w (s.mem.readAt addr.toNat w)
      ip := ipPlus s 3 }) ∧
    (∀ w addr, exec (.movMemAcc w addr) s = .next { s with
      mem := s.mem.writeAt addr.toNat w (s.x.operand 0 w)
      ip := ipPlus s 3 })

/-! ## ADD, SUB, CMP -/

/-- ADD, SUB and CMP of register/memory with register, from their bytes (R133, R136, R139). -/
def Obligations.ArithRmRegFromBytes : Prop :=
  ∀ (k : ArithKind) (s : State) (d w : Bool) (mod : BitVec 2) (reg rm : BitVec 3), Ready s →
    code s 0 = opcodeRm k ++ BitVec.ofBool d ++ BitVec.ofBool w → code s 1 = mod ++ reg ++ rm →
    let rmop := operandAt s mod rm
    let dst : Operand := if d then .reg reg.toFin else rmop
    let src : Operand := if d then rmop else .reg reg.toFin
    (Accessible rmop →
      step s = .next { arithAfter s k dst (width w) (getOperand s src (width w)) with ip := ipPlus s (2 + dispAt mod rm) }) ∧
    (¬ Accessible rmop → step s = .next (raisedOutOfBounds s))

/-- ADD, SUB and CMP of register/memory with an immediate, from their bytes; a selector outside the three raises
`UnrecognizedOpcode` (R134, R137, R140). -/
def Obligations.ArithRmImmFromBytes : Prop :=
  ∀ (s : State) (sx w : Bool) (mod : BitVec 2) (sel rm : BitVec 3), Ready s →
    code s 0 = 0b100000#6 ++ BitVec.ofBool sx ++ BitVec.ofBool w → code s 1 = mod ++ sel ++ rm →
    let dst := operandAt s mod rm
    let n := dispAt mod rm
    (∀ k, sel = selector k → Accessible dst →
      step s = .next { arithAfter s k dst (width w) (grpImmAt s sx w (2 + n)) with
        ip := ipPlus s (2 + n + grpImmLen sx w) }) ∧
    (∀ k, sel = selector k → ¬ Accessible dst → step s = .next (raisedOutOfBounds s)) ∧
    ((∀ k, sel ≠ selector k) → step s = .next { s with status := .faulted, cause := .unrecognizedOpcode })

/-- ADD, SUB and CMP of the accumulator with an immediate, from their bytes: never a fault (R135, R138, R141). -/
def Obligations.ArithAccImmFromBytes : Prop :=
  ∀ (k : ArithKind) (s : State) (w : Bool), Ready s → code s 0 = opcodeAcc k ++ BitVec.ofBool w →
    step s = .next { arithAfter s k (.reg 0) (width w) (immAt s w 1) with ip := ipPlus s (1 + (width w).bytes) }

/-- The nine arithmetic instructions complete wherever their operand is accessible: addRmReg, subRmReg, cmpRmReg, addRmImm,
subRmImm, cmpRmImm, addAccImm, subAccImm, cmpAccImm (42_add_sub_cmp.md; decisions D2, D6, D7). -/
def Obligations.ArithCompletes : Prop :=
  ∀ (k : ArithKind) (s : State),
    (∀ d w rm reg, Accessible (resolve rm s.x) →
      exec (k.rmReg d w rm reg) s = .next { arithAfter s k (Dir.dst d (resolve rm s.x) (.reg reg)) w
        (getOperand s (Dir.src d (resolve rm s.x) (.reg reg)) w) with ip := ipPlus s (2 + rm.dispLen) }) ∧
    (∀ rm imm, Accessible (resolve rm s.x) →
      exec (k.rmImm rm imm) s = .next { arithAfter s k (resolve rm s.x) imm.width (GrpImm.value imm) with
        ip := ipPlus s (2 + rm.dispLen + imm.len) }) ∧
    (∀ imm, exec (k.accImm imm) s = .next { arithAfter s k (.reg 0) imm.width (Imm.value imm) with
      ip := ipPlus s (1 + imm.width.bytes) })

/-! ## Jumps and loops -/

/-- The twelve jumps whose condition needs a flag this core lacks: `ip` goes past the two bytes, under both settings and whatever
the flags and the displacement (R152 to R155, R158, R159, R162 to R167). -/
def Obligations.TwelveJumpsNeverTaken : Prop :=
  ∀ (s : State) (b : Byte), Ready s → code s 0 = b →
    b ∈ [0x70#8, 0x71#8, 0x72#8, 0x73#8, 0x76#8, 0x77#8, 0x7A#8, 0x7B#8, 0x7C#8, 0x7D#8, 0x7E#8, 0x7F#8] →
    step s = .next { s with ip := ipPlus s 2 }

/-- `jnz`: taken when `ZF = 0`, under both settings (R157). -/
def Obligations.JnzFromBytes : Prop :=
  ∀ s : State, Ready s → code s 0 = 0x75#8 → step s = .next (jumped s (s.zf = false))

/-- `je`, `js`, `jns`: taken on their flag under `extended`, never under `jnz_only` (R156, R160, R161). -/
def Obligations.FlagJumpsFromBytes : Prop :=
  ∀ s : State, Ready s →
    (code s 0 = 0x74#8 → step s = .next (jumped s (s.branchExec = .extended ∧ s.zf = true))) ∧
    (code s 0 = 0x78#8 → step s = .next (jumped s (s.branchExec = .extended ∧ s.sf = true))) ∧
    (code s 0 = 0x79#8 → step s = .next (jumped s (s.branchExec = .extended ∧ s.sf = false)))

/-- `jcxz`: under `extended`, taken when all of `cx` is 0; `cx` is never changed (R173). -/
def Obligations.JcxzFromBytes : Prop :=
  ∀ s : State, Ready s → code s 0 = 0xE3#8 →
    step s = .next (jumped s (s.branchExec = .extended ∧ (s.x.read 1).toNat = 0))

/-- `loopnz`, `loopz`, `loop`: under `extended`, `cx` is decremented without touching a flag and the loop is taken when it is not
then 0 (and `ZF` is 0, or 1); under `jnz_only` they only go past their two bytes (R170 to R172). -/
def Obligations.LoopsFromBytes : Prop :=
  ∀ s : State, Ready s →
    (s.branchExec = .jnzOnly → (code s 0 = 0xE0#8 ∨ code s 0 = 0xE1#8 ∨ code s 0 = 0xE2#8) →
      step s = .next { s with ip := ipPlus s 2 }) ∧
    (s.branchExec = .extended →
      (code s 0 = 0xE0#8 → step s = .next { jumped s ((cxLess s).toNat ≠ 0 ∧ s.zf = false) with
        x := s.x.write 1 (cxLess s) }) ∧
      (code s 0 = 0xE1#8 → step s = .next { jumped s ((cxLess s).toNat ≠ 0 ∧ s.zf = true) with
        x := s.x.write 1 (cxLess s) }) ∧
      (code s 0 = 0xE2#8 → step s = .next { jumped s ((cxLess s).toNat ≠ 0) with x := s.x.write 1 (cxLess s) }))

/-- Every instruction of format J completes from every state, as the table of R151 says for the setting (decisions D2, D10): jo,
jno, jb, jnb, je, jnz, jbe, ja, js, jns, jp, jnp, jl, jnl, jle, jg, loopnz, loopz, loop, jcxz. -/
def Obligations.JumpsComplete : Prop :=
  ∀ (j : Jump) (disp : Byte) (s : State),
    let pre := if isLoop j = true ∧ s.branchExec = .extended then cxDecremented s else s
    (taken s.branchExec j s.zf s.sf (pre.x.read 1) →
      exec (j.instr disp) s = .next { pre with ip := ipPlus s (2 + disp.toInt) }) ∧
    (¬ taken s.branchExec j s.zf s.sf (pre.x.read 1) →
      exec (j.instr disp) s = .next { pre with ip := ipPlus s 2 })

/-! ## Frames, over all 34 instructions -/

/-- A general register keeps its value unless it holds the instruction's register destination, or is `cx` of a loop under
`extended`; a byte destination keeps the other half of its register (R14, R105, R151). -/
def Obligations.RegisterFrame : Prop :=
  ∀ (i : Instr) (s t : State), exec i s = .next t →
    (∀ j : RegField, (∀ r w, dest i s.x = some (.reg r, w) → j ≠ holder r w) →
      ¬ (decrementsCx i = true ∧ s.branchExec = .extended ∧ j = 1) → t.x.read j = s.x.read j) ∧
    (∀ r : RegField, dest i s.x = some (.reg r, .byte) →
      if r.val < 4 then (t.x.read r).toNat / 256 = (s.x.read r).toNat / 256
      else (t.x.read (r - 4)).toNat % 256 = (s.x.read (r - 4)).toNat % 256)

/-- Only ADD, SUB and CMP write the flags; MOV, the jumps and the loops keep both (R17, decision D10 for the loops). -/
def Obligations.FlagFrame : Prop :=
  ∀ (i : Instr) (s t : State), exec i s = .next t → writesFlags i = false → t.zf = s.zf ∧ t.sf = s.sf

/-- Every byte of memory outside the instruction's memory destination reads as before; CMP, the jumps, the loops and every form
with a register destination change no byte at all (R33, R37). -/
def Obligations.MemoryFrame : Prop :=
  ∀ (i : Instr) (s t : State) (c : Nat), exec i s = .next t →
    (∀ a w, dest i s.x = some (.mem a, w) → (c : Int) < a ∨ a + w.bytes ≤ c) → t.mem.read c = s.mem.read c

/-- No instruction changes a launch argument (notes/assumptions/1.md); `status` and `cause` change only where a
`MemoryOutOfBounds` is taken, and then nothing else does (R21, R182). -/
def Obligations.ControlFrame : Prop :=
  ∀ (i : Instr) (s t : State), exec i s = .next t →
    t.progLen = s.progLen ∧ t.branchExec = s.branchExec ∧
    ((t.status = s.status ∧ t.cause = s.cause) ∨ t = raisedOutOfBounds s)
end

