-- ==== Sys2Proof/Laws/Decode.lean ====
section
/-! SUPPORT. The small lemmas of the decoder, the encoder and the fetch. -/

namespace Sys2Proof

@[simp] theorem Decoded.andThen_ok {α β : Type} (a : α) (bs : List Byte) (f : α → List Byte → Decoded β) :
    Decoded.andThen (.ok (a, bs)) f = f a bs := rfl

@[simp] theorem Decoded.andThen_error {α β : Type} (e : DecodeError) (f : α → List Byte → Decoded β) :
    Decoded.andThen (.error e) f = .error e := rfl

@[simp] theorem Decoded.wrap_ok {α β : Type} (a : α) (bs : List Byte) (f : α → β) :
    Decoded.wrap (.ok (a, bs)) f = .ok (f a, bs) := rfl

@[simp] theorem Decoded.wrap_error {α β : Type} (e : DecodeError) (f : α → β) :
    Decoded.wrap (.error e : Decoded α) f = .error e := rfl

@[simp] theorem decodeByte_cons (b : Byte) (bs : List Byte) : decodeByte (b :: bs) = .ok (b, bs) := rfl

@[simp] theorem decodeWord_cons (lo hi : Byte) (bs : List Byte) : decodeWord (lo :: hi :: bs) = .ok (le16 lo hi, bs) := rfl

theorem le16_toNat (lo hi : Byte) : (le16 lo hi).toNat = 256 * hi.toNat + lo.toNat := by
  have h := BitVec.toNat_append hi lo
  rw [← Nat.shiftLeft_add_eq_or_of_lt lo.isLt, Nat.shiftLeft_eq] at h
  show (hi ++ lo).toNat = _
  rw [h]
  omega

theorem lowByte_toNat (v : Word) : (lowByte v).toNat = v.toNat % 256 := by
  simp [lowByte, BitVec.extractLsb'_toNat]

theorem highByte_toNat (v : Word) : (highByte v).toNat = v.toNat / 256 := by
  have := v.isLt
  simp only [highByte, BitVec.extractLsb'_toNat, Nat.shiftRight_eq_div_pow]
  omega

@[simp] theorem le16_bytes (v : Word) : le16 (lowByte v) (highByte v) = v := by
  apply BitVec.eq_of_toNat_eq
  rw [le16_toNat, lowByte_toNat, highByte_toNat]
  omega

@[simp] theorem lowByte_le16 (lo hi : Byte) : lowByte (le16 lo hi) = lo := by
  have := lo.isLt
  apply BitVec.eq_of_toNat_eq
  rw [lowByte_toNat, le16_toNat]
  omega

@[simp] theorem highByte_le16 (lo hi : Byte) : highByte (le16 lo hi) = hi := by
  have := lo.isLt
  apply BitVec.eq_of_toNat_eq
  rw [highByte_toNat, le16_toNat]
  omega

theorem addressing_fields : ∀ (mod : BitVec 2) (mid rm : BitVec 3),
    modField (addressingByte mod mid rm) = mod ∧ midField (addressingByte mod mid rm) = mid ∧
      lowField (addressingByte mod mid rm) = rm := by decide

theorem addressing_of_fields : ∀ b : Byte, addressingByte (modField b) (midField b) (lowField b) = b := by decide

@[simp] theorem regOfField_fieldOfReg (i : RegField) : regOfField (fieldOfReg i) = i := rfl

@[simp] theorem fieldOfReg_regOfField (f : BitVec 3) : fieldOfReg (regOfField f) = f := rfl

@[simp] theorem Base.ofField_field (b : Base) : Base.ofField b.field = b := by cases b <;> rfl

theorem Base.field_ofField : ∀ f : BitVec 3, (Base.ofField f).field = f := by decide

/-- No byte is matched by two entries, so the order of the dispatch table decides nothing (R69). -/
theorem dispatch_unique : ∀ b : Byte, (dispatchTable.filter fun e => e.selects b).length ≤ 1 := by decide +kernel

/-- The dispatch table has 32 entries (R51). -/
theorem dispatch_length : dispatchTable.length = 32 := by decide

end Sys2Proof

namespace Sys2Proof.Machine

/-- Six bytes are never too few for an instruction (R34, R63). -/
theorem decode_six_not_truncated (b0 b1 b2 b3 b4 b5 : Byte) : decode [b0, b1, b2, b3, b4, b5] ≠ .error .truncated := by
  have hRm : ∀ (mod : BitVec 2) (rm : BitVec 3), ∃ r bs, decodeRm mod rm [b2, b3, b4, b5] = .ok (r, bs) ∧
      2 ≤ bs.length := by
    intro mod rm
    unfold decodeRm
    split
    · exact ⟨_, _, rfl, by simp⟩
    split
    · split
      · exact ⟨_, _, rfl, by simp⟩
      · exact ⟨_, _, rfl, by simp⟩
    split
    · exact ⟨_, _, rfl, by simp⟩
    · exact ⟨_, _, rfl, by simp⟩
  have hImm : ∀ (w : Width) (bs : List Byte), 2 ≤ bs.length → ∃ i bs', decodeImm w bs = .ok (i, bs') := by
    intro w bs h
    match bs, h with
    | b :: c :: bs, _ => cases w <;> exact ⟨_, _, rfl⟩
  have hGrp : ∀ (s w : Bool) (bs : List Byte), 2 ≤ bs.length → ∃ i bs', decodeGrpImm s w bs = .ok (i, bs') := by
    intro s w bs h
    match bs, h with
    | b :: c :: bs, _ => cases s <;> cases w <;> exact ⟨_, _, rfl⟩
  unfold decode
  simp only
  split
  · simp
  · rename_i f _
    obtain ⟨r, bs, e, hl⟩ := hRm (modField b1) (lowField b1)
    obtain ⟨imm, bs', e'⟩ := hImm (widthOfBit (wBit b0)) bs hl
    obtain ⟨gimm, bs'', e''⟩ := hGrp (dBit b0) (wBit b0) bs hl
    cases f <;> simp only [decodeForm]
    · simp [decodeRmReg, decodeAddressing, e]
    · simp [decodeRmReg, decodeAddressing, e]
    · simp [decodeIrm, decodeAddressing, e, e']
    · obtain ⟨i, bs, h⟩ := hImm (widthOfBit (irWBit b0)) [b1, b2, b3, b4, b5] (by simp)
      simp [h]
    · simp
    · simp
    · simp only [decodeGrp, decodeByte_cons, Decoded.andThen_ok]
      split <;> simp [e, e'']
    · obtain ⟨i, bs, h⟩ := hImm (widthOfBit (wBit b0)) [b1, b2, b3, b4, b5] (by simp)
      simp [h]
    · simp

/-- The fetch never runs out of bytes (R34). -/
theorem State.fetch_not_truncated (s : State) : decode s.fetchBytes ≠ .error .truncated :=
  decode_six_not_truncated _ _ _ _ _ _

/-- The bytes a fetch reads (R34). -/
theorem State.fetchBytes_get (s : State) (k : Nat) (h : k < 6) :
    s.fetchBytes[k]? = some (s.mem.read (s.ip.toNat + k)) := by
  match k, h with
  | 0, _ => rfl
  | 1, _ => rfl
  | 2, _ => rfl
  | 3, _ => rfl
  | 4, _ => rfl
  | 5, _ => rfl

end Sys2Proof.Machine
end

