-- ==== Sys2Proof/Laws/Memory.lean ====
section
/-! SUPPORT. Reading and writing memory, and that every memory operation keeps the canonical form. -/

namespace Sys2Proof.Machine

@[simp] theorem Memory.read_nil (a : Nat) : Memory.read [] a = Memory.unlisted := rfl

theorem Memory.read_cons (k : Nat) (v : Byte) (m : Memory) (a : Nat) :
    Memory.read ((k, v) :: m) a = if k = a then v else Memory.read m a := rfl

theorem Memory.read_erase (m : Memory) (a c : Nat) :
    (m.erase a).read c = if c = a then Memory.unlisted else m.read c := by
  induction m with
  | nil => simp [Memory.erase]
  | cons p m ih =>
    obtain ⟨k, v⟩ := p
    by_cases hk : k = a
    · subst hk
      rw [show Memory.erase ((k, v) :: m) k = Memory.erase m k by simp [Memory.erase], ih, Memory.read_cons]
      split <;> simp_all [eq_comm]
    · rw [show Memory.erase ((k, v) :: m) a = (k, v) :: Memory.erase m a by simp [Memory.erase, hk],
        Memory.read_cons, ih, Memory.read_cons]
      split <;> simp_all

/-- Inserting at an address that no cell has. -/
theorem Memory.read_insert (m : Memory) (a : Nat) (b : Byte) (c : Nat) (h : ∀ p ∈ m, p.1 ≠ a) :
    (m.insert a b).read c = if c = a then b else m.read c := by
  induction m with
  | nil => simp [Memory.insert, Memory.read_cons, eq_comm]
  | cons p m ih =>
    obtain ⟨k, v⟩ := p
    have hk : k ≠ a := h (k, v) (by simp)
    have hm : ∀ p ∈ m, p.1 ≠ a := fun p hp => h p (by simp [hp])
    unfold Memory.insert
    split
    · rw [Memory.read_cons]
      split <;> simp_all [eq_comm]
    · rw [Memory.read_cons, Memory.read_cons, ih hm]
      split <;> simp_all

theorem Memory.erase_ne (m : Memory) (a : Nat) : ∀ p ∈ m.erase a, p.1 ≠ a := by
  simp [Memory.erase]

/-- A read after a write: the byte written at its address, the old byte everywhere else. -/
theorem Memory.read_write (m : Memory) (a : Nat) (b : Byte) (c : Nat) :
    (m.write a b).read c = if c = a then b else m.read c := by
  unfold Memory.write
  split
  · rename_i h
    rw [Memory.read_erase, h]
  · rw [Memory.read_insert _ _ _ _ (m.erase_ne a), Memory.read_erase]
    split <;> simp_all

@[simp] theorem Memory.read_write_self (m : Memory) (a : Nat) (b : Byte) : (m.write a b).read a = b := by
  simp [Memory.read_write]

theorem Memory.read_write_ne (m : Memory) {a c : Nat} (b : Byte) (h : c ≠ a) : (m.write a b).read c = m.read c := by
  simp [Memory.read_write, h]

/-- A stored value leaves every byte outside its own alone. -/
theorem Memory.read_writeAt_of_outside (m : Memory) (a : Nat) (w : Width) (v : BitVec w.bits) (c : Nat)
    (h : c < a ∨ a + w.bytes ≤ c) : (m.writeAt a w v).read c = m.read c := by
  cases w <;> simp only [Memory.writeAt, Width.bytes] at h ⊢
  · rw [Memory.read_write_ne _ _ (by omega)]
  · rw [Memory.read_write_ne _ _ (by omega), Memory.read_write_ne _ _ (by omega)]

/-- A byte of a list of bytes written at rising addresses, or the old byte outside them. -/
theorem Memory.read_writeBytes (m : Memory) (a : Nat) (bs : List Byte) (c : Nat) :
    (m.writeBytes a bs).read c = if a ≤ c then (bs[c - a]?).getD (m.read c) else m.read c := by
  induction bs generalizing m a with
  | nil => simp [Memory.writeBytes]
  | cons b bs ih =>
    rw [Memory.writeBytes, ih, Memory.read_write]
    by_cases h : c = a
    · subst h
      simp
    · by_cases h' : a ≤ c
      · have hc : c - a = (c - (a + 1)) + 1 := by omega
        simp [show a + 1 ≤ c by omega, h', h, hc]
      · simp [show ¬ a + 1 ≤ c by omega, h', h]

/-! ## The canonical form -/

theorem Memory.wf_nil : Memory.wf [] := by decide

theorem Memory.wf_erase {m : Memory} (h : m.wf) (a : Nat) : (m.erase a).wf :=
  ⟨h.1.filter _, fun p hp => h.2 p (List.mem_of_mem_filter hp)⟩

theorem Memory.mem_insert {m : Memory} {a : Nat} {b : Byte} {p : Host.Cell} (h : p ∈ m.insert a b) :
    p = (a, b) ∨ p ∈ m := by
  induction m with
  | nil => simpa [Memory.insert] using h
  | cons q m ih =>
    unfold Memory.insert at h
    split at h
    · simpa using h
    · rcases List.mem_cons.1 h with rfl | h
      · simp
      · rcases ih h with h | h <;> simp [h]

theorem Memory.wf_insert {m : Memory} (h : m.wf) {a : Nat} {b : Byte} (ha : a < Config.memSize)
    (hb : b ≠ Memory.unlisted) (hne : ∀ p ∈ m, p.1 ≠ a) : (m.insert a b).wf := by
  refine ⟨?_, fun p hp => ?_⟩
  · obtain ⟨hs, -⟩ := h
    induction m with
    | nil => simp [Memory.insert]
    | cons q m ih =>
      obtain ⟨hq, hm⟩ := List.pairwise_cons.1 hs
      unfold Memory.insert
      split
      · rename_i hlt
        refine List.pairwise_cons.2 ⟨fun p hp => ?_, hs⟩
        rcases List.mem_cons.1 hp with rfl | hp
        · exact hlt
        · exact lt_trans hlt (hq p hp)
      · rename_i hlt
        refine List.pairwise_cons.2 ⟨fun p hp => ?_, ih (fun p hp => hne p (by simp [hp])) hm⟩
        rcases Memory.mem_insert hp with rfl | hp
        · have := hne q (by simp)
          simp only at hlt ⊢
          omega
        · exact hq p hp
  · rcases Memory.mem_insert hp with rfl | hp
    · exact ⟨ha, hb⟩
    · exact h.2 p hp

theorem Memory.wf_write {m : Memory} (h : m.wf) {a : Nat} (ha : a < Config.memSize) (b : Byte) : (m.write a b).wf := by
  unfold Memory.write
  split
  · exact Memory.wf_erase h a
  · rename_i hb
    exact Memory.wf_insert (Memory.wf_erase h a) ha hb (m.erase_ne a)

theorem Memory.wf_writeAt {m : Memory} (h : m.wf) {a : Nat} (w : Width) (v : BitVec w.bits)
    (ha : a + w.bytes ≤ Config.memSize) : (m.writeAt a w v).wf := by
  cases w <;> simp only [Memory.writeAt, Width.bytes] at ha ⊢
  · exact Memory.wf_write h (by omega) _
  · exact Memory.wf_write (Memory.wf_write h (by omega) _) (by omega) _

theorem Memory.wf_writeBytes {m : Memory} (h : m.wf) {a : Nat} (bs : List Byte) (ha : a + bs.length ≤ Config.memSize) :
    (m.writeBytes a bs).wf := by
  induction bs generalizing m a with
  | nil => exact h
  | cons b bs ih =>
    rw [List.length_cons] at ha
    exact ih (Memory.wf_write h (by omega) b) (by omega)

/-- Every cell of an image's memory is one of its bytes. -/
theorem Memory.mem_ofImage {a : Nat} {image : List Byte} {p : Host.Cell} (h : p ∈ Memory.ofImage a image) :
    a ≤ p.1 ∧ p.1 < a + image.length ∧ p.2 ≠ Memory.unlisted := by
  induction image generalizing a with
  | nil => simp [Memory.ofImage] at h
  | cons b rest ih =>
    unfold Memory.ofImage at h
    rw [List.length_cons]
    split at h
    · have := ih h
      exact ⟨by omega, by omega, this.2.2⟩
    · rcases List.mem_cons.1 h with rfl | h
      · exact ⟨le_refl _, by simp, by assumption⟩
      · have := ih h
        exact ⟨by omega, by omega, this.2.2⟩

theorem Memory.wf_ofImage (a : Nat) (image : List Byte) (h : a + image.length ≤ Config.memSize) :
    (Memory.ofImage a image).wf := by
  refine ⟨?_, fun p hp => ?_⟩
  · clear h
    induction image generalizing a with
    | nil => simp [Memory.ofImage]
    | cons b rest ih =>
      unfold Memory.ofImage
      split
      · exact ih _
      · refine List.pairwise_cons.2 ⟨fun p hp => ?_, ih _⟩
        exact (Memory.mem_ofImage hp).1
  · have := Memory.mem_ofImage hp
    exact ⟨by omega, this.2.2⟩

end Sys2Proof.Machine
end

