-- ==== Sys2Proof/Laws/State.lean ====
section
/-! SUPPORT. One lemma per field per named update of the state, so that no later proof unfolds a record update. -/

namespace Sys2Proof.Machine

/-! ## Raising a fault (R182) -/

@[simp] theorem State.raise_x (s : State) (f : Fault) : (s.raise f).x = s.x := rfl
@[simp] theorem State.raise_zf (s : State) (f : Fault) : (s.raise f).zf = s.zf := rfl
@[simp] theorem State.raise_sf (s : State) (f : Fault) : (s.raise f).sf = s.sf := rfl
@[simp] theorem State.raise_ip (s : State) (f : Fault) : (s.raise f).ip = s.ip := rfl
@[simp] theorem State.raise_mem (s : State) (f : Fault) : (s.raise f).mem = s.mem := rfl
@[simp] theorem State.raise_status (s : State) (f : Fault) : (s.raise f).status = .faulted := rfl
@[simp] theorem State.raise_cause (s : State) (f : Fault) : (s.raise f).cause = f.cause := rfl
@[simp] theorem State.raise_progLen (s : State) (f : Fault) : (s.raise f).progLen = s.progLen := rfl
@[simp] theorem State.raise_branchExec (s : State) (f : Fault) : (s.raise f).branchExec = s.branchExec := rfl

/-! ## Halting (R91) -/

@[simp] theorem State.halt_x (s : State) : s.halt.x = s.x := rfl
@[simp] theorem State.halt_zf (s : State) : s.halt.zf = s.zf := rfl
@[simp] theorem State.halt_sf (s : State) : s.halt.sf = s.sf := rfl
@[simp] theorem State.halt_ip (s : State) : s.halt.ip = s.ip := rfl
@[simp] theorem State.halt_mem (s : State) : s.halt.mem = s.mem := rfl
@[simp] theorem State.halt_status (s : State) : s.halt.status = .halted := rfl
@[simp] theorem State.halt_cause (s : State) : s.halt.cause = s.cause := rfl
@[simp] theorem State.halt_progLen (s : State) : s.halt.progLen = s.progLen := rfl
@[simp] theorem State.halt_branchExec (s : State) : s.halt.branchExec = s.branchExec := rfl

/-! ## Advancing `ip` (R19) -/

@[simp] theorem State.advance_x (s : State) (n : Nat) : (s.advance n).x = s.x := rfl
@[simp] theorem State.advance_zf (s : State) (n : Nat) : (s.advance n).zf = s.zf := rfl
@[simp] theorem State.advance_sf (s : State) (n : Nat) : (s.advance n).sf = s.sf := rfl
@[simp] theorem State.advance_ip (s : State) (n : Nat) : (s.advance n).ip = s.ip + BitVec.ofNat 16 n := rfl
@[simp] theorem State.advance_mem (s : State) (n : Nat) : (s.advance n).mem = s.mem := rfl
@[simp] theorem State.advance_status (s : State) (n : Nat) : (s.advance n).status = s.status := rfl
@[simp] theorem State.advance_cause (s : State) (n : Nat) : (s.advance n).cause = s.cause := rfl
@[simp] theorem State.advance_progLen (s : State) (n : Nat) : (s.advance n).progLen = s.progLen := rfl
@[simp] theorem State.advance_branchExec (s : State) (n : Nat) : (s.advance n).branchExec = s.branchExec := rfl

/-! ## The flags (R131) -/

section
variable {n : Nat}

@[simp] theorem State.setZS_x (s : State) (r : BitVec n) : (s.setZS r).x = s.x := rfl
@[simp] theorem State.setZS_zf (s : State) (r : BitVec n) : (s.setZS r).zf = (r == 0#n) := rfl
@[simp] theorem State.setZS_sf (s : State) (r : BitVec n) : (s.setZS r).sf = r.msb := rfl
@[simp] theorem State.setZS_ip (s : State) (r : BitVec n) : (s.setZS r).ip = s.ip := rfl
@[simp] theorem State.setZS_mem (s : State) (r : BitVec n) : (s.setZS r).mem = s.mem := rfl
@[simp] theorem State.setZS_status (s : State) (r : BitVec n) : (s.setZS r).status = s.status := rfl
@[simp] theorem State.setZS_cause (s : State) (r : BitVec n) : (s.setZS r).cause = s.cause := rfl
@[simp] theorem State.setZS_progLen (s : State) (r : BitVec n) : (s.setZS r).progLen = s.progLen := rfl
@[simp] theorem State.setZS_branchExec (s : State) (r : BitVec n) : (s.setZS r).branchExec = s.branchExec := rfl

end

/-! ## Decrementing `cx` (R151) -/

@[simp] theorem State.decCx_x (s : State) : s.decCx.x = s.x.write 1 (s.cx - 1#16) := rfl
@[simp] theorem State.decCx_zf (s : State) : s.decCx.zf = s.zf := rfl
@[simp] theorem State.decCx_sf (s : State) : s.decCx.sf = s.sf := rfl
@[simp] theorem State.decCx_ip (s : State) : s.decCx.ip = s.ip := rfl
@[simp] theorem State.decCx_mem (s : State) : s.decCx.mem = s.mem := rfl
@[simp] theorem State.decCx_status (s : State) : s.decCx.status = s.status := rfl
@[simp] theorem State.decCx_cause (s : State) : s.decCx.cause = s.cause := rfl
@[simp] theorem State.decCx_progLen (s : State) : s.decCx.progLen = s.progLen := rfl
@[simp] theorem State.decCx_branchExec (s : State) : s.decCx.branchExec = s.branchExec := rfl

/-! ## Branching (R150): everything but `ip` is kept, taken or not -/

section
variable (s : State) (b : Bool) (disp : Byte)

@[simp] theorem State.branch_x : (s.branch b disp).x = s.x := by cases b <;> rfl
@[simp] theorem State.branch_zf : (s.branch b disp).zf = s.zf := by cases b <;> rfl
@[simp] theorem State.branch_sf : (s.branch b disp).sf = s.sf := by cases b <;> rfl
@[simp] theorem State.branch_mem : (s.branch b disp).mem = s.mem := by cases b <;> rfl
@[simp] theorem State.branch_status : (s.branch b disp).status = s.status := by cases b <;> rfl
@[simp] theorem State.branch_cause : (s.branch b disp).cause = s.cause := by cases b <;> rfl
@[simp] theorem State.branch_progLen : (s.branch b disp).progLen = s.progLen := by cases b <;> rfl
@[simp] theorem State.branch_branchExec : (s.branch b disp).branchExec = s.branchExec := by cases b <;> rfl

theorem State.branch_ip : (s.branch b disp).ip = if b then s.ip + 2#16 + disp.signExtend 16 else s.ip + 2#16 := by
  cases b <;> rfl

end

/-! ## Launching (R200, R201) -/

section
variable (be : BranchExec) (image : List Byte)

@[simp] theorem State.launch_x : (State.launch be image).x = Vector.replicate 8 0#16 := rfl
@[simp] theorem State.launch_zf : (State.launch be image).zf = false := rfl
@[simp] theorem State.launch_sf : (State.launch be image).sf = false := rfl
@[simp] theorem State.launch_ip : (State.launch be image).ip = 0#16 := rfl
@[simp] theorem State.launch_mem : (State.launch be image).mem = Memory.ofImage 0 image := rfl
@[simp] theorem State.launch_status : (State.launch be image).status = .running := rfl
@[simp] theorem State.launch_cause : (State.launch be image).cause = .none := rfl
@[simp] theorem State.launch_progLen : (State.launch be image).progLen = image.length := rfl
@[simp] theorem State.launch_branchExec : (State.launch be image).branchExec = be := rfl

end

/-! ## Placing an instruction -/

section
variable (s : State) (bs : List Byte)

@[simp] theorem State.withInstrBytes_x : (s.withInstrBytes bs).x = s.x := rfl
@[simp] theorem State.withInstrBytes_zf : (s.withInstrBytes bs).zf = s.zf := rfl
@[simp] theorem State.withInstrBytes_sf : (s.withInstrBytes bs).sf = s.sf := rfl
@[simp] theorem State.withInstrBytes_ip : (s.withInstrBytes bs).ip = s.ip := rfl
@[simp] theorem State.withInstrBytes_mem : (s.withInstrBytes bs).mem = s.mem.writeBytes s.ip.toNat bs := rfl
@[simp] theorem State.withInstrBytes_status : (s.withInstrBytes bs).status = .running := rfl
@[simp] theorem State.withInstrBytes_cause : (s.withInstrBytes bs).cause = .none := rfl
@[simp] theorem State.withInstrBytes_progLen :
    (s.withInstrBytes bs).progLen = max s.progLen (s.ip.toNat + bs.length) := rfl
@[simp] theorem State.withInstrBytes_branchExec : (s.withInstrBytes bs).branchExec = s.branchExec := rfl

end

end Sys2Proof.Machine
end

