-- ==== Sys2Proof/Laws/Ops.lean ====
section
/-! SUPPORT. For each shared operation, everything it can do, said once. -/

namespace Sys2Proof.Machine

/-! ## Registers -/

theorem Regs.read_write (x : Regs) (i j : RegField) (v : Word) :
    (x.write i v).read j = if i = j then v else x.read j := by
  simp only [Regs.read, Regs.write, Vector.get_eq_getElem, Vector.getElem_set, Fin.ext_iff]

@[simp] theorem Regs.read_write_self (x : Regs) (i : RegField) (v : Word) : (x.write i v).read i = v := by
  simp [Regs.read_write]

theorem Regs.read_write_ne (x : Regs) {i j : RegField} (v : Word) (h : i ≠ j) : (x.write i v).read j = x.read j := by
  simp [Regs.read_write, h]

/-! ## Accesses to memory (R32, R33) -/

theorem State.memRead_of_inBounds {s : State} {a : Int} {w : Width} (h : inBounds a w.bytes) :
    s.memRead a w = .ok (s.mem.readAt a.toNat w) := if_pos h

theorem State.memRead_of_not {s : State} {a : Int} {w : Width} (h : ¬ inBounds a w.bytes) :
    s.memRead a w = .error .memoryOutOfBounds := if_neg h

theorem State.memWrite_of_inBounds {s : State} {a : Int} {w : Width} {v : BitVec w.bits} (h : inBounds a w.bytes) :
    s.memWrite a w v = .ok { s with mem := s.mem.writeAt a.toNat w v } := if_pos h

theorem State.memWrite_of_not {s : State} {a : Int} {w : Width} {v : BitVec w.bits} (h : ¬ inBounds a w.bytes) :
    s.memWrite a w v = .error .memoryOutOfBounds := if_neg h

/-! ## Operands (R95 to R101) -/

/-- What a base expression can be (R96). -/
theorem Base.sum_bounds (b : Base) (x : Regs) : 0 ≤ Base.sum b x ∧ Base.sum b x ≤ 0x1FFFE := by
  have h : ∀ i, (x.read i).toNat < 65536 := fun i => (x.read i).isLt
  have h3 := h 3
  have h5 := h 5
  have h6 := h 6
  have h7 := h 7
  cases b <;> simp only [Base.sum] <;> omega

/-- What an address can be (R30, R98). -/
theorem resolve_bounds {rm : Rm} {x : Regs} {a : Int} (h : resolve rm x = .mem a) : -32768 ≤ a ∧ a ≤ 0x27FFD := by
  cases rm with
  | reg i => simp [resolve] at h
  | direct addr =>
    have := addr.isLt
    simp only [resolve, Operand.mem.injEq] at h
    omega
  | base b =>
    have := Base.sum_bounds b x
    simp only [resolve, Operand.mem.injEq] at h
    omega
  | disp8 b d =>
    have := Base.sum_bounds b x
    have := d.toInt_lt
    have := d.le_toInt
    simp only [resolve, Operand.mem.injEq] at h
    omega
  | disp16 b d =>
    have := Base.sum_bounds b x
    have := d.toInt_lt
    have := d.le_toInt
    simp only [resolve, Operand.mem.injEq] at h
    omega

/-- A resolved address is in bounds exactly when it is not negative (R30, R184). -/
theorem inBounds_resolve {rm : Rm} {x : Regs} {a : Int} (h : resolve rm x = .mem a) (w : Width) :
    inBounds a w.bytes ↔ 0 ≤ a := by
  have := resolve_bounds h
  cases w <;> simp only [inBounds, Width.bytes, Config.memSize] <;> omega

/-- A direct address is always in bounds (R30). -/
theorem inBounds_direct (addr : Word) (w : Width) : inBounds (addr.toNat : Int) w.bytes := by
  have := addr.isLt
  cases w <;> simp only [inBounds, Width.bytes, Config.memSize] <;> omega

/-- Everything `OpRd` can do (R100). -/
theorem State.opRd_cases (s : State) (op : Operand) (w : Width) :
    (∃ i, op = .reg i ∧ s.opRd op w = .ok (s.x.operand i w)) ∨
    (∃ a, op = .mem a ∧ inBounds a w.bytes ∧ s.opRd op w = .ok (s.mem.readAt a.toNat w)) ∨
    (∃ a, op = .mem a ∧ ¬ inBounds a w.bytes ∧ s.opRd op w = .error .memoryOutOfBounds) := by
  cases op with
  | reg i => exact .inl ⟨i, rfl, rfl⟩
  | mem a =>
    by_cases h : inBounds a w.bytes
    · exact .inr (.inl ⟨a, rfl, h, State.memRead_of_inBounds h⟩)
    · exact .inr (.inr ⟨a, rfl, h, State.memRead_of_not h⟩)

/-- Everything `OpWr` can do (R101). -/
theorem State.opWr_cases (s : State) (op : Operand) (w : Width) (v : BitVec w.bits) :
    (∃ i, op = .reg i ∧ s.opWr op w v = .ok { s with x := s.x.setOperand i w v }) ∨
    (∃ a, op = .mem a ∧ inBounds a w.bytes ∧ s.opWr op w v = .ok { s with mem := s.mem.writeAt a.toNat w v }) ∨
    (∃ a, op = .mem a ∧ ¬ inBounds a w.bytes ∧ s.opWr op w v = .error .memoryOutOfBounds) := by
  cases op with
  | reg i => exact .inl ⟨i, rfl, rfl⟩
  | mem a =>
    by_cases h : inBounds a w.bytes
    · exact .inr (.inl ⟨a, rfl, h, State.memWrite_of_inBounds h⟩)
    · exact .inr (.inr ⟨a, rfl, h, State.memWrite_of_not h⟩)

/-- The only fault of `OpWr`. -/
theorem State.opWr_error {s : State} {op : Operand} {w : Width} {v : BitVec w.bits} {f : Fault}
    (h : s.opWr op w v = .error f) : f = .memoryOutOfBounds := by
  rcases s.opWr_cases op w v with ⟨i, -, e⟩ | ⟨a, -, -, e⟩ | ⟨a, -, -, e⟩ <;> rw [e] at h <;> cases h
  rfl

/-- The only fault of `OpRd`. -/
theorem State.opRd_error {s : State} {op : Operand} {w : Width} {f : Fault}
    (h : s.opRd op w = .error f) : f = .memoryOutOfBounds := by
  rcases s.opRd_cases op w with ⟨i, -, e⟩ | ⟨a, -, -, e⟩ | ⟨a, -, -, e⟩ <;> rw [e] at h <;> cases h
  rfl

/-! ## The shared bodies -/

/-- The store of `Arith`: nothing for CMP, `OpWr` for the others (R132). -/
theorem State.storeResult_cases {s t : State} {k : ArithKind} {dst : Operand} {w : Width} {r : BitVec w.bits}
    (h : s.storeResult k dst w r = .ok t) : (k = .cmp ∧ t = s) ∨ (k ≠ .cmp ∧ s.opWr dst w r = .ok t) := by
  cases k <;> simp_all [State.storeResult]

/-- Everything `Arith` does when it completes (R132). -/
theorem State.arith_ok {s t : State} {k : ArithKind} {dst : Operand} {w : Width} {b : BitVec w.bits}
    (h : s.arith k dst w b = .ok t) :
    ∃ a t', s.opRd dst w = .ok a ∧ s.storeResult k dst w (ArithKind.compute k a b) = .ok t' ∧
      t = t'.setZS (ArithKind.compute k a b) := by
  unfold State.arith at h
  split at h
  · cases h
  · rename_i a ha
    simp only at h
    split at h
    · cases h
    · rename_i t' ht
      cases h
      exact ⟨a, t', ha, ht, rfl⟩

/-- The only fault of `Arith`. -/
theorem State.arith_error {s : State} {k : ArithKind} {dst : Operand} {w : Width} {b : BitVec w.bits} {f : Fault}
    (h : s.arith k dst w b = .error f) : f = .memoryOutOfBounds := by
  unfold State.arith at h
  split at h
  · rename_i f' hf
    cases h
    exact State.opRd_error hf
  · simp only at h
    split at h
    · rename_i f' hf
      cases h
      cases k <;> simp only [State.storeResult] at hf <;> first | exact State.opWr_error hf | cases hf
    · cases h

/-- Everything copying a value into an operand does when it completes (R125). -/
theorem State.moveTo_ok {s t : State} {dst : Operand} {w : Width} {v : BitVec w.bits} {len : Nat}
    (h : s.moveTo dst w v len = .ok t) : ∃ t', s.opWr dst w v = .ok t' ∧ t = t'.advance len := by
  unfold State.moveTo at h
  split at h
  · cases h
  · rename_i t' ht
    cases h
    exact ⟨t', ht, rfl⟩

/-- Everything copying an operand does when it completes (R125). -/
theorem State.move_ok {s t : State} {dst src : Operand} {w : Width} {len : Nat}
    (h : s.move dst src w len = .ok t) :
    ∃ v t', s.opRd src w = .ok v ∧ s.opWr dst w v = .ok t' ∧ t = t'.advance len := by
  unfold State.move at h
  split at h
  · cases h
  · rename_i v hv
    obtain ⟨t', ht, e⟩ := State.moveTo_ok h
    exact ⟨v, t', hv, ht, e⟩

/-- Everything `Arith` with a source value does when it completes, `ip` past the instruction (R132). -/
theorem State.arithValue_ok {s t : State} {k : ArithKind} {dst : Operand} {w : Width} {b : BitVec w.bits} {len : Nat}
    (h : s.arithValue k dst w b len = .ok t) : ∃ t', s.arith k dst w b = .ok t' ∧ t = t'.advance len := by
  unfold State.arithValue at h
  split at h
  · cases h
  · rename_i t' ht
    cases h
    exact ⟨t', ht, rfl⟩

/-- Everything format RM does when it completes (R133, R136, R139). -/
theorem State.arithRmReg_ok {s t : State} {k : ArithKind} {d : Dir} {w : Width} {rm : Rm} {reg : RegField}
    (h : s.arithRmReg k d w rm reg = .ok t) :
    ∃ b, s.opRd (Dir.src d (resolve rm s.x) (.reg reg)) w = .ok b ∧
      s.arithValue k (Dir.dst d (resolve rm s.x) (.reg reg)) w b (lenRmReg rm) = .ok t := by
  unfold State.arithRmReg at h
  split at h
  · cases h
  · rename_i b hb
    exact ⟨b, hb, h⟩

/-- A meaning ends in the state it computed, or in the state it began with and a fault taken (R92, R182). -/
theorem State.finish_cases (s : State) (r : Except Fault State) :
    (∃ t, r = .ok t ∧ s.finish r = .next t) ∨ (∃ f, r = .error f ∧ s.finish r = .next (s.raise f)) := by
  cases r with
  | ok t => exact .inl ⟨t, rfl, rfl⟩
  | error f => exact .inr ⟨f, rfl, rfl⟩

end Sys2Proof.Machine
end

