-- ==== Sys2Proof/Laws/PerInstr.lean ====
section
/-! SUPPORT. Statements about every instruction as syntax, one lemma a constructor. -/

namespace Sys2Proof.Laws.Length

/-- An instruction is as long as R63 says, and 2 to 6 bytes long (R50). -/
def Statement (i : Instr) : Prop := (encode i).length = i.length ∧ 2 ≤ i.length ∧ i.length ≤ 6

theorem dispBytes_length (rm : Rm) : rm.dispBytes.length = rm.dispLen ∧ rm.dispLen ≤ 2 := by
  cases rm <;> simp [Rm.dispBytes, Rm.dispLen, wordBytes]

theorem imm_length (imm : Imm) : imm.bytes.length = imm.len ∧ 1 ≤ imm.len ∧ imm.len ≤ 2 := by
  cases imm <;> simp [Imm.bytes, Imm.len, Imm.width, wordBytes]

theorem grpImm_length (imm : GrpImm) : imm.bytes.length = imm.len ∧ 1 ≤ imm.len ∧ imm.len ≤ 2 := by
  cases imm <;> simp [GrpImm.bytes, GrpImm.len, wordBytes]

/-- Format RM (R63). -/
theorem of_rmReg (b0 b1 : Byte) (rm : Rm) :
    (b0 :: b1 :: rm.dispBytes).length = lenRmReg rm ∧ 2 ≤ lenRmReg rm ∧ lenRmReg rm ≤ 6 := by
  have := dispBytes_length rm
  simp only [List.length_cons, lenRmReg]
  omega

/-- Format IRM (R63). -/
theorem of_irm (b0 b1 : Byte) (rm : Rm) (imm : Imm) :
    (b0 :: b1 :: (rm.dispBytes ++ imm.bytes)).length = lenIrm rm imm ∧ 2 ≤ lenIrm rm imm ∧ lenIrm rm imm ≤ 6 := by
  have := dispBytes_length rm
  have := imm_length imm
  simp only [List.length_cons, List.length_append, lenIrm]
  omega

/-- Format GRP (R63). -/
theorem of_grp (b0 b1 : Byte) (rm : Rm) (imm : GrpImm) :
    (b0 :: b1 :: (rm.dispBytes ++ imm.bytes)).length = lenGrp rm imm ∧ 2 ≤ lenGrp rm imm ∧ lenGrp rm imm ≤ 6 := by
  have := dispBytes_length rm
  have := grpImm_length imm
  simp only [List.length_cons, List.length_append, lenGrp]
  omega

/-- Format MA (R63). -/
theorem of_ma (b0 : Byte) (addr : Word) : (b0 :: wordBytes addr).length = lenMa ∧ 2 ≤ lenMa ∧ lenMa ≤ 6 := by
  simp [wordBytes, lenMa]

/-- Format J (R63). -/
theorem of_j (b0 disp : Byte) : [b0, disp].length = lenJ ∧ 2 ≤ lenJ ∧ lenJ ≤ 6 := by simp [lenJ]

/-- Formats IR and IA (R63). -/
theorem of_imm (b0 : Byte) (imm : Imm) :
    (b0 :: imm.bytes).length = lenImm imm ∧ 2 ≤ lenImm imm ∧ lenImm imm ≤ 6 := by
  have := imm_length imm
  simp only [List.length_cons, lenImm]
  omega

theorem movRmReg (d : Dir) (w : Width) (rm : Rm) (reg : RegField) : Statement (.movRmReg d w rm reg) :=
  of_rmReg _ _ rm

theorem movRmImm (ign : BitVec 3) (rm : Rm) (imm : Imm) : Statement (.movRmImm ign rm imm) := of_irm _ _ rm imm

theorem movRegImm (reg : RegField) (imm : Imm) : Statement (.movRegImm reg imm) := of_imm _ imm

theorem movAccMem (w : Width) (addr : Word) : Statement (.movAccMem w addr) := of_ma _ addr

theorem movMemAcc (w : Width) (addr : Word) : Statement (.movMemAcc w addr) := of_ma _ addr

theorem addRmReg (d : Dir) (w : Width) (rm : Rm) (reg : RegField) : Statement (.addRmReg d w rm reg) :=
  of_rmReg _ _ rm

theorem addRmImm (rm : Rm) (imm : GrpImm) : Statement (.addRmImm rm imm) := of_grp _ _ rm imm

theorem addAccImm (imm : Imm) : Statement (.addAccImm imm) := of_imm _ imm

theorem subRmReg (d : Dir) (w : Width) (rm : Rm) (reg : RegField) : Statement (.subRmReg d w rm reg) :=
  of_rmReg _ _ rm

theorem subRmImm (rm : Rm) (imm : GrpImm) : Statement (.subRmImm rm imm) := of_grp _ _ rm imm

theorem subAccImm (imm : Imm) : Statement (.subAccImm imm) := of_imm _ imm

theorem cmpRmReg (d : Dir) (w : Width) (rm : Rm) (reg : RegField) : Statement (.cmpRmReg d w rm reg) :=
  of_rmReg _ _ rm

theorem cmpRmImm (rm : Rm) (imm : GrpImm) : Statement (.cmpRmImm rm imm) := of_grp _ _ rm imm

theorem cmpAccImm (imm : Imm) : Statement (.cmpAccImm imm) := of_imm _ imm

theorem jo (disp : Byte) : Statement (.jo disp) := of_j _ disp

theorem jno (disp : Byte) : Statement (.jno disp) := of_j _ disp

theorem jb (disp : Byte) : Statement (.jb disp) := of_j _ disp

theorem jnb (disp : Byte) : Statement (.jnb disp) := of_j _ disp

theorem je (disp : Byte) : Statement (.je disp) := of_j _ disp

theorem jnz (disp : Byte) : Statement (.jnz disp) := of_j _ disp

theorem jbe (disp : Byte) : Statement (.jbe disp) := of_j _ disp

theorem ja (disp : Byte) : Statement (.ja disp) := of_j _ disp

theorem js (disp : Byte) : Statement (.js disp) := of_j _ disp

theorem jns (disp : Byte) : Statement (.jns disp) := of_j _ disp

theorem jp (disp : Byte) : Statement (.jp disp) := of_j _ disp

theorem jnp (disp : Byte) : Statement (.jnp disp) := of_j _ disp

theorem jl (disp : Byte) : Statement (.jl disp) := of_j _ disp

theorem jnl (disp : Byte) : Statement (.jnl disp) := of_j _ disp

theorem jle (disp : Byte) : Statement (.jle disp) := of_j _ disp

theorem jg (disp : Byte) : Statement (.jg disp) := of_j _ disp

theorem loopnz (disp : Byte) : Statement (.loopnz disp) := of_j _ disp

theorem loopz (disp : Byte) : Statement (.loopz disp) := of_j _ disp

theorem loop (disp : Byte) : Statement (.loop disp) := of_j _ disp

theorem jcxz (disp : Byte) : Statement (.jcxz disp) := of_j _ disp

end Sys2Proof.Laws.Length
end

