-- ==== Sys2Proof/Laws/Step.lean ====
section
/-! SUPPORT. Placing an instruction where the step fetches, and that the step then runs it (notes/assumptions/2.md). -/

namespace Sys2Proof.Machine

theorem tableWordBytes_length (nbits w : Nat) : (tableWordBytes nbits w).length = 6 := by
  have h : ∀ k, (tableUnitBytes nbits w k).length = 2 := by
    intro k
    unfold tableUnitBytes
    split
    · rfl
    split <;> rfl
  simp [tableWordBytes, h]

/-- What is placed is what is fetched. -/
theorem State.fetchBytes_withInstrBytes (s : State) (bs : List Byte) (h : bs.length = 6) :
    (s.withInstrBytes bs).fetchBytes = bs := by
  apply List.ext_getElem?
  intro k
  by_cases hk : k < 6
  · rw [State.fetchBytes_get _ k hk]
    have hb : k < bs.length := h ▸ hk
    simp only [State.withInstrBytes, Memory.read_writeBytes, Nat.le_add_right, if_true, Nat.add_sub_cancel_left]
    rw [List.getElem?_eq_getElem hb]
    rfl
  · have hl : (s.withInstrBytes bs).fetchBytes.length = 6 := rfl
    rw [List.getElem?_eq_none (by omega), List.getElem?_eq_none (by omega)]

/-- The very next step runs exactly the instruction the decoder reads from the table word. -/
theorem step_withFetchWord (s : State) (nbits w : Nat) (i : Instr) (h : decodeTableWord nbits w = some i) :
    step (s.withFetchWord nbits w) = exec i (s.withFetchWord nbits w) := by
  have hl := tableWordBytes_length nbits w
  have hend : (s.withInstrBytes (tableWordBytes nbits w)).atEnd = false := by
    simp only [State.atEnd, State.withInstrBytes, hl, decide_eq_false_iff_not]
    omega
  unfold decodeTableWord at h
  have hf : (s.withInstrBytes (tableWordBytes nbits w)).fetch = .ok i := by
    unfold State.fetch
    rw [State.fetchBytes_withInstrBytes _ _ hl]
    generalize decode (tableWordBytes nbits w) = d at h ⊢
    cases d with
    | ok p =>
      cases h
      rfl
    | error e => cases h
  simp [step, State.withFetchWord, State.withInstrBytes] at hf hend ⊢
  simp [hf, hend]

/-- Placing an instruction keeps the canonical form of memory. -/
theorem State.withFetchWord_wf {s : State} (h : s.mem.wf) (nbits w : Nat) : (s.withFetchWord nbits w).mem.wf := by
  have := s.ip.isLt
  apply Memory.wf_writeBytes h
  rw [tableWordBytes_length]
  simp only [Config.memSize]
  omega

end Sys2Proof.Machine
end

