-- ==== Sys2Proof/Machine/Text.lean ====
section
/-! DEFINITION. What the host prints: assembler text (spec/30_encoding.md section 8), the listing of print mode, the register dump
and the flag string (spec/70_reset_and_hazards.md R205 to R207). The core's behaviour does not depend on this file; the choices
the spec makes in it are decision D16 (notes/assumptions/16.md). -/

namespace Sys2Proof.Machine

/-- The name of a register at width 16 (R11). -/
def wordName (i : RegField) : String :=
  match i with
  | 0 => "ax"
  | 1 => "cx"
  | 2 => "dx"
  | 3 => "bx"
  | 4 => "sp"
  | 5 => "bp"
  | 6 => "si"
  | 7 => "di"

/-- The name of a register field value at width 8 (R12). -/
def byteName (i : RegField) : String :=
  match i with
  | 0 => "al"
  | 1 => "cl"
  | 2 => "dl"
  | 3 => "bl"
  | 4 => "ah"
  | 5 => "ch"
  | 6 => "dh"
  | 7 => "bh"

/-- A register operand's text (R76). -/
def regText (i : RegField) (w : Width) : String :=
  match w with
  | .byte => byteName i
  | .word => wordName i

/-- A natural number in decimal. -/
def decimal (n : Nat) : String := String.ofList (Nat.toDigits 10 n)

/-- The base expression's text (R77, R96). -/
def baseText (b : Base) : String :=
  match b with
  | .bxSi => "bx + si"
  | .bxDi => "bx + di"
  | .bpSi => "bp + si"
  | .bpDi => "bp + di"
  | .si => "si"
  | .di => "di"
  | .bp => "bp"
  | .bx => "bx"

/-- A displacement term, printed even when zero: ` + d` or ` - |d|` (R77, conflict C7). -/
def dispText (d : Int) : String :=
  if 0 ≤ d then " + " ++ decimal d.toNat else " - " ++ decimal d.natAbs

/-- The operand of `mod` and `rm` (R76, R77). -/
def rmText (rm : Rm) (w : Width) : String :=
  match rm with
  | .reg i => regText i w
  | .direct addr => "[" ++ decimal addr.toNat ++ "]"
  | .base b => "[" ++ baseText b ++ "]"
  | .disp8 b d => "[" ++ baseText b ++ dispText d.toInt ++ "]"
  | .disp16 b d => "[" ++ baseText b ++ dispText d.toInt ++ "]"

/-- The size word before a memory destination of an immediate (R78). -/
def sizedText (rm : Rm) (w : Width) : String :=
  match rm, w with
  | .reg _, _ => rmText rm w
  | _, .byte => "byte " ++ rmText rm w
  | _, .word => "word " ++ rmText rm w

/-- The printed value of an immediate of forms IR, IRM and IA, unsigned decimal (R79). -/
def immText (imm : Imm) : String :=
  match imm with
  | .imm8 v => decimal v.toNat
  | .imm16 v => decimal v.toNat

/-- The printed value of an immediate of form GRP, after sign extension, unsigned decimal (R79). -/
def grpImmText (imm : GrpImm) : String :=
  match imm with
  | .imm8 v => decimal v.toNat
  | .imm16 v => decimal v.toNat
  | .imm8s v => decimal v.toNat
  | .sext8 v => decimal (v.signExtend 16).toNat

/-- `<mnemonic> <dest>, <src>` (R75). -/
def twoText (mnemonic dst src : String) : String := mnemonic ++ " " ++ dst ++ ", " ++ src

/-- Form RM: the destination by the direction bit (R75). -/
def rmRegText (mnemonic : String) (d : Dir) (w : Width) (rm : Rm) (reg : RegField) : String :=
  match d with
  | .regIsSource => twoText mnemonic (rmText rm w) (regText reg w)
  | .regIsDest => twoText mnemonic (regText reg w) (rmText rm w)

/-- Form GRP (R75, R78, R79). -/
def grpText (mnemonic : String) (rm : Rm) (imm : GrpImm) : String :=
  twoText mnemonic (sizedText rm imm.width) (grpImmText imm)

/-- Form IA: the accumulator is `al` or `ax` (R76). -/
def iaText (mnemonic : String) (imm : Imm) : String := twoText mnemonic (regText 0 imm.width) (immText imm)

/-- Form J: the printed offset is the displacement plus 2, relative to the jump's own byte 0 (R80). -/
def jumpText (mnemonic : String) (disp : Byte) : String :=
  if 0 ≤ disp.toInt + 2 then mnemonic ++ " $+" ++ decimal (disp.toInt + 2).toNat
  else mnemonic ++ " $-" ++ decimal (disp.toInt + 2).natAbs

/-- The text of an instruction, with the mnemonics of R59 (R75 to R81). -/
def instrText (i : Instr) : String :=
  match i with
  | .movRmReg d w rm reg => rmRegText "mov" d w rm reg
  | .movRmImm _ rm imm => twoText "mov" (sizedText rm imm.width) (immText imm)
  | .movRegImm reg imm => twoText "mov" (regText reg imm.width) (immText imm)
  | .movAccMem w addr => twoText "mov" (regText 0 w) (rmText (.direct addr) w)
  | .movMemAcc w addr => twoText "mov" (rmText (.direct addr) w) (regText 0 w)
  | .addRmReg d w rm reg => rmRegText "add" d w rm reg
  | .addRmImm rm imm => grpText "add" rm imm
  | .addAccImm imm => iaText "add" imm
  | .subRmReg d w rm reg => rmRegText "sub" d w rm reg
  | .subRmImm rm imm => grpText "sub" rm imm
  | .subAccImm imm => iaText "sub" imm
  | .cmpRmReg d w rm reg => rmRegText "cmp" d w rm reg
  | .cmpRmImm rm imm => grpText "cmp" rm imm
  | .cmpAccImm imm => iaText "cmp" imm
  | .jo disp => jumpText "jo" disp
  | .jno disp => jumpText "jno" disp
  | .jb disp => jumpText "jb" disp
  | .jnb disp => jumpText "jnb" disp
  | .je disp => jumpText "je" disp
  | .jnz disp => jumpText "jnz" disp
  | .jbe disp => jumpText "jbe" disp
  | .ja disp => jumpText "ja" disp
  | .js disp => jumpText "js" disp
  | .jns disp => jumpText "jns" disp
  | .jp disp => jumpText "jp" disp
  | .jnp disp => jumpText "jnp" disp
  | .jl disp => jumpText "jl" disp
  | .jnl disp => jumpText "jnl" disp
  | .jle disp => jumpText "jle" disp
  | .jg disp => jumpText "jg" disp
  | .loopnz disp => jumpText "loopnz" disp
  | .loopz disp => jumpText "loopz" disp
  | .loop disp => jumpText "loop" disp
  | .jcxz disp => jumpText "jcxz" disp

/-- The lines of print mode from an address: one instruction after another by length until `PROG_LEN`, jumps not followed, nothing
executed, ending early at an unrecognised opcode (R205). `fuel` bounds the number of lines; `PROG_LEN` of it is enough.
DESIGN CHOICE: for a last instruction that begins below 2^20 and ends at or above it, bytes at addresses of 2^20 and above read as
0x00 and the line is printed; the spec does not say (notes/assumptions/22.md). -/
def listingFrom (fuel : Nat) (s : State) (cur : Nat) : List String :=
  match fuel with
  | 0 => []
  | fuel + 1 =>
    if s.progLen ≤ cur then []
    else
      match decode (s.bytesAt cur) with
      | .ok (i, _) => instrText i :: listingFrom fuel s (cur + i.length)
      | .error _ => []

/-- The listing of print mode, behind the directive line (R82, R205). -/
def listing (s : State) : List String := "bits 16" :: listingFrom s.progLen s 0

/-- The two-character flag string (R207). -/
def flagString (s : State) : String := (if s.zf then "Z" else "0") ++ (if s.sf then "S" else "0")

/-- Four hexadecimal digits of a 16-bit value (R206). -/
def hex4 (v : Word) : String := String.ofList ([12, 8, 4, 0].map fun k => Nat.digitChar (v.toNat >>> k % 16))

/-- One line of the dump, after the source's format; the decimal is printed unsigned (R206; notes/assumptions/16.md). -/
def dumpLine (name : String) (v : Word) : String := "\t" ++ name ++ ": 0x" ++ hex4 v ++ " (" ++ decimal v.toNat ++ ")"

/-- What the host prints after a run: the registers in table order, `ip`, the flag string (R206). -/
def dump (s : State) : List String :=
  ([0, 1, 2, 3, 4, 5, 6, 7].map fun i => dumpLine (wordName i) (s.x.read i)) ++
    [dumpLine "ip" s.ip, "\tflags:" ++ flagString s]

end Sys2Proof.Machine
end

