-- ==== Sys2Proof/Tests/Slice0.lean ====
section
/-! SUPPORT. The model's own tests. The words are written out from spec/30_encoding.md; what a step must do is taken from
spec/95_test_vectors.md, the vector's id in each comment. The witnesses at the end show, for each statement with hypotheses,
that concrete states and operands meet them together, one for each clause, at the ends of the ranges. -/

namespace Sys2Proof.Tests

open Sys2Proof.Machine Sys2Proof.Claims

/-! ## Helpers -/

/-- The reset state with an image. -/
def boot (image : List Byte) : State := State.launch .jnzOnly image

/-- The same under `extended`. -/
def bootExt (image : List Byte) : State := State.launch .extended image

/-- A state with some registers set. -/
def regs (s : State) (vs : List (RegField × Word)) : State := { s with x := vs.foldl (fun x p => x.write p.1 p.2) s.x }

/-- A state with bytes put at an address. -/
def put (s : State) (a : Nat) (bs : List Byte) : State := { s with mem := s.mem.writeBytes a bs }

/-- A state with `ip` and the bytes at it. -/
def bootAt (ip : Word) (bs : List Byte) : State :=
  { State.reset with ip := ip, mem := Memory.ofImage ip.toNat bs, progLen := ip.toNat + bs.length }

/-- The next state of an outcome, looked at through `f`. -/
def seenIn {α : Type} (r : Result) (f : State → α) : Option α :=
  match r with
  | .next t => some (f t)
  | .fault _ => none
  | .refused _ => none

/-- What a step leaves, looked at through `f`. -/
def seen {α : Type} (s : State) (f : State → α) : Option α := seenIn (step s) f

/-- One register, `ip` and the flag string after a step. -/
def look (s : State) (r : RegField) : Option (Word × Word × String) :=
  seen s fun t => (t.x.read r, t.ip, flagString t)

/-- Bytes of memory from an address, `ip` and the flag string after a step. -/
def lookMem (s : State) (a n : Nat) : Option (List Byte × Word × String) :=
  seen s fun t => ((List.range n).map fun k => t.mem.read (a + k), t.ip, flagString t)

/-- The stop of a fault: status, cause, and that the rest is as before. -/
def lookFault (s : State) : Option (Status × Cause × Bool) :=
  seen s fun t => (t.status, t.cause, t == { s with status := t.status, cause := t.cause })

theorem exists_next_in {r : Result} (f : State → Bool) (h : seenIn r f = some true) : ∃ t, r = .next t ∧ f t = true := by
  cases r with
  | next t => exact ⟨t, rfl, by simpa [seenIn] using h⟩
  | fault _ => cases h
  | refused _ => cases h

theorem exists_next {s : State} (f : State → Bool) (h : seen s f = some true) : ∃ t, step s = .next t ∧ f t = true :=
  exists_next_in f h

theorem accessible_mem {op : Operand} (a : Int) (h : op = .mem a) (ha : 0 ≤ a) : Accessible op := by
  intro b hb
  rw [h] at hb
  cases hb
  exact ha

theorem not_accessible_mem {op : Operand} (a : Int) (h : op = .mem a) (ha : a < 0) : ¬ Accessible op := by
  intro hc
  have := hc a h
  omega

/-! ## Well-formedness: each check refuses its ill-formed term -/

theorem test_wf_refuses_movRmReg : (Instr.movRmReg .regIsSource .word (.base .bp) 0).wf = false := by decide
theorem test_wf_refuses_movRmImm : (Instr.movRmImm 0#3 (.base .bp) (.imm8 0#8)).wf = false := by decide
theorem test_wf_refuses_addRmReg : (Instr.addRmReg .regIsDest .byte (.base .bp) 0).wf = false := by decide
theorem test_wf_refuses_addRmImm : (Instr.addRmImm (.base .bp) (.sext8 0#8)).wf = false := by decide
theorem test_wf_refuses_subRmReg : (Instr.subRmReg .regIsDest .byte (.base .bp) 0).wf = false := by decide
theorem test_wf_refuses_subRmImm : (Instr.subRmImm (.base .bp) (.imm8 0#8)).wf = false := by decide
theorem test_wf_refuses_cmpRmReg : (Instr.cmpRmReg .regIsDest .byte (.base .bp) 0).wf = false := by decide
theorem test_wf_refuses_cmpRmImm : (Instr.cmpRmImm (.base .bp) (.imm16 0#16)).wf = false := by decide

theorem test_wf_accepts : (Instr.movRmReg .regIsSource .word (.disp8 .bp 0#8) 0).wf = true := by decide

/-! ## Decoding: a word of every constructor, bit by bit from R51 to R62 -/

/-- Form RM: opcode `d` `w`, then `mod` `reg` `rm` (R53; R61 for the displacements). -/
theorem test_decode_rm :
    decode [0b10001001#8, 0b11011001#8] = .ok (.movRmReg .regIsSource .word (.reg 1) 3, []) ∧
    decode [0b00000010#8, 0b01100110#8, 0xFF#8] = .ok (.addRmReg .regIsDest .byte (.disp8 .bp 0xFF#8) 4, []) ∧
    decode [0b00101011#8, 0b00011110#8, 0x10#8, 0x20#8] = .ok (.subRmReg .regIsDest .word (.direct 0x2010#16) 3, []) ∧
    decode [0b00111000#8, 0b10000011#8, 0x34#8, 0x12#8] =
      .ok (.cmpRmReg .regIsSource .byte (.disp16 .bpDi 0x1234#16) 0, []) := by decide

/-- Forms IRM and IR (R54, R56): the displacement before the immediate (R60). -/
theorem test_decode_mov_imm :
    decode [0b11000111#8, 0b10111100#8, 0x00#8, 0x01#8, 0xCD#8, 0xAB#8] =
      .ok (.movRmImm 0b111#3 (.disp16 .si 0x0100#16) (.imm16 0xABCD#16), []) ∧
    decode [0b10110100#8, 0x7F#8] = .ok (.movRegImm 4 (.imm8 0x7F#8), []) ∧
    decode [0b10111011#8, 0x34#8, 0x12#8] = .ok (.movRegImm 3 (.imm16 0x1234#16), []) := by decide

/-- Form MA: the address is two bytes for both widths (R57). -/
theorem test_decode_ma :
    decode [0b10100000#8, 0x10#8, 0x00#8] = .ok (.movAccMem .byte 0x0010#16, []) ∧
    decode [0b10100011#8, 0xFF#8, 0x01#8] = .ok (.movMemAcc .word 0x01FF#16, []) := by decide

/-- Form GRP: `s` `w`, then `mod` selector `rm` (R55, R62). -/
theorem test_decode_grp :
    decode [0b10000011#8, 0b11000011#8, 0x05#8] = .ok (.addRmImm (.reg 3) (.sext8 0x05#8), []) ∧
    decode [0b10000001#8, 0b11101011#8, 0x34#8, 0x12#8] = .ok (.subRmImm (.reg 3) (.imm16 0x1234#16), []) ∧
    decode [0b10000010#8, 0b11111011#8, 0x80#8] = .ok (.cmpRmImm (.reg 3) (.imm8s 0x80#8), []) ∧
    decode [0b10000000#8, 0b00111110#8, 0x00#8, 0x01#8, 0x80#8] =
      .ok (.cmpRmImm (.direct 0x0100#16) (.imm8 0x80#8), []) := by decide

/-- Form IA (R58). -/
theorem test_decode_ia :
    decode [0b00000101#8, 0xFF#8, 0x7F#8] = .ok (.addAccImm (.imm16 0x7FFF#16), []) ∧
    decode [0b00101100#8, 0x10#8] = .ok (.subAccImm (.imm8 0x10#8), []) ∧
    decode [0b00111101#8, 0x00#8, 0x80#8] = .ok (.cmpAccImm (.imm16 0x8000#16), []) := by decide

/-- Form J, the first eight conditional jumps (R59). -/
theorem test_decode_jumps_low :
    decode [0b01110000#8, 0x02#8] = .ok (.jo 2#8, []) ∧ decode [0b01110001#8, 0x02#8] = .ok (.jno 2#8, []) ∧
    decode [0b01110010#8, 0x02#8] = .ok (.jb 2#8, []) ∧ decode [0b01110011#8, 0x02#8] = .ok (.jnb 2#8, []) ∧
    decode [0b01110100#8, 0x02#8] = .ok (.je 2#8, []) ∧ decode [0b01110101#8, 0x02#8] = .ok (.jnz 2#8, []) ∧
    decode [0b01110110#8, 0x02#8] = .ok (.jbe 2#8, []) ∧ decode [0b01110111#8, 0x02#8] = .ok (.ja 2#8, []) := by decide

/-- Form J, the other eight conditional jumps (R59). -/
theorem test_decode_jumps_high :
    decode [0b01111000#8, 0x02#8] = .ok (.js 2#8, []) ∧ decode [0b01111001#8, 0x02#8] = .ok (.jns 2#8, []) ∧
    decode [0b01111010#8, 0x02#8] = .ok (.jp 2#8, []) ∧ decode [0b01111011#8, 0x02#8] = .ok (.jnp 2#8, []) ∧
    decode [0b01111100#8, 0x02#8] = .ok (.jl 2#8, []) ∧ decode [0b01111101#8, 0x02#8] = .ok (.jnl 2#8, []) ∧
    decode [0b01111110#8, 0x02#8] = .ok (.jle 2#8, []) ∧ decode [0b01111111#8, 0x02#8] = .ok (.jg 2#8, []) := by decide

/-- Form J, the loops and `jcxz` (R59). -/
theorem test_decode_loops :
    decode [0b11100000#8, 0xFE#8] = .ok (.loopnz 0xFE#8, []) ∧ decode [0b11100001#8, 0xFE#8] = .ok (.loopz 0xFE#8, []) ∧
    decode [0b11100010#8, 0xFE#8] = .ok (.loop 0xFE#8, []) ∧ decode [0b11100011#8, 0xFE#8] = .ok (.jcxz 0xFE#8, []) := by
  decide

/-- Rejected by name: byte 0 (R65), the selector (R66), and a list that ends too soon. -/
theorem test_decode_rejects :
    decode [0x90#8] = .error (.unrecognizedOpcode 0x90#8) ∧
    decode [0x80#8, 0xC8#8, 0x01#8] = .error (.unrecognizedSelector 0x80#8 0xC8#8) ∧
    decode [0xB8#8, 0x01#8] = .error .truncated := by decide

/-- 68 values of byte 0 are recognised (R65). -/
theorem test_recognised_count : ((List.range 256).filter fun n => (dispatch (BitVec.ofNat 8 n)).isSome).length = 68 := by
  decide

/-- The lengths of section 2.7 of the vectors, as bytes consumed and as `Instr.length`. -/
theorem test_lengths :
    ([[0x89, 0xD9], [0x8B, 0x07], [0x8B, 0x06, 0x10, 0x00], [0x8B, 0x47, 0x01], [0x8B, 0x87, 0x00, 0x01],
      [0xC6, 0x07, 0x01], [0xC7, 0x86, 0x00, 0x01, 0x34, 0x12], [0x83, 0xC3, 0x05], [0x81, 0xC3, 0x05, 0x00],
      [0x81, 0x86, 0x00, 0x01, 0x05, 0x00], [0x83, 0x86, 0x00, 0x01, 0x05], [0xB0, 0x05], [0xB8, 0x05, 0x00],
      [0xA0, 0x10, 0x00], [0x04, 0x01], [0x05, 0x01, 0x00], [0xE2, 0xFB]].map fun bs : List Byte =>
        match decode bs with
        | .ok (i, rest) => (i.length, rest.length)
        | .error _ => (0, 0)) =
    [(2, 0), (2, 0), (4, 0), (3, 0), (4, 0), (3, 0), (6, 0), (3, 0), (4, 0), (6, 0), (5, 0), (2, 0), (3, 0), (3, 0), (2, 0),
      (3, 0), (2, 0)] := by decide

/-- The numbering of the opcode table: byte 0 in bits [15:8] (R52). -/
theorem test_table_words :
    decodeTableWord 16 0x8800 = some (.movRmReg .regIsSource .byte (.base .bxSi) 0) ∧
    decodeTableWord 16 0xC600 = some (.movRmImm 0#3 (.base .bxSi) (.imm8 0#8)) ∧
    decodeTableWord 16 0x8038 = some (.cmpRmImm (.base .bxSi) (.imm8 0#8)) ∧
    decodeTableWord 16 0xE300 = some (.jcxz 0#8) ∧
    decodeTableWord 8 0xB0 = some (.movRegImm 0 (.imm8 0#8)) ∧
    decodeTableWord 16 0x9000 = none := by decide

/-- The first step after placing a table word runs it: `add [bx + si], al` on zeros (X5), then `mov` of a word immediate. -/
theorem test_withFetchWord :
    look (State.reset.withFetchWord 16 0x0000) 0 = some (0#16, 2#16, "Z0") ∧
    look (State.reset.withFetchWord 16 0xBB34) 3 = some (0x0034#16, 3#16, "00") := by decide

/-! ## MOV, one step -/

/-- M2: `mov ah, bl` keeps `al`. -/
theorem test_mov_high_half :
    look (regs (boot [0x8A#8, 0xE3#8]) [(0, 0x1111#16), (3, 0x00CD#16)]) 0 = some (0xCD11#16, 2#16, "00") := by decide

/-- M7: `mov ax, [bx + si]` at 0x1FFFE, not wrapped to 16 bits. -/
theorem test_mov_no_wrap :
    look (put (regs (boot [0x8B#8, 0x00#8]) [(3, 0xFFFF#16), (6, 0xFFFF#16)]) 0x1FFFE [0x11#8, 0x22#8]) 0 =
      some (0x2211#16, 2#16, "00") := by decide

/-- M12: `mov word [si + 256], 43981`. -/
theorem test_mov_imm_disp16 :
    lookMem (regs (boot [0xC7#8, 0x84#8, 0x00#8, 0x01#8, 0xCD#8, 0xAB#8]) [(6, 0x0010#16)]) 0x110 2 =
      some ([0xCD#8, 0xAB#8], 6#16, "00") := by decide

/-- M14: byte 1 bits [5:3] of the immediate form are ignored. -/
theorem test_mov_imm_ignored_bits :
    look (boot [0xC7#8, 0xF9#8, 0x34#8, 0x12#8]) 1 = some (0x1234#16, 4#16, "00") := by decide

/-- M15: `mov ah, 127`. -/
theorem test_mov_reg_imm8 : look (regs (boot [0xB4#8, 0x7F#8]) [(0, 0x00FF#16)]) 0 = some (0x7FFF#16, 2#16, "00") := by
  decide

/-- M16: `mov bx, 4660`. -/
theorem test_mov_reg_imm16 : look (boot [0xBB#8, 0x34#8, 0x12#8]) 3 = some (0x1234#16, 3#16, "00") := by decide

/-- M18: `mov al, [16]` reads one byte through a two-byte address and keeps `ah`. -/
theorem test_mov_acc_mem :
    look (put (regs (boot [0xA0#8, 0x10#8, 0x00#8]) [(0, 0xFF00#16)]) 0x10 [0x34#8, 0x12#8]) 0 =
      some (0xFF34#16, 3#16, "00") := by decide

/-- M19: `mov [65535], ax` spills into 0x10000. -/
theorem test_mov_mem_acc :
    lookMem (regs (boot [0xA3#8, 0xFF#8, 0xFF#8]) [(0, 0xA55A#16)]) 0xFFFF 2 = some ([0x5A#8, 0xA5#8], 3#16, "00") := by
  decide

/-- M22: address 0 reached by `[bx - 32768]`. -/
theorem test_mov_disp16_negative :
    look (regs (boot [0x8B#8, 0x87#8, 0x00#8, 0x80#8]) [(3, 0x8000#16)]) 0 = some (0x878B#16, 4#16, "00") := by decide

/-! ## ADD, SUB, CMP, one step -/

/-- A5: `add ah, al`: SF is bit 7 of the byte result, no carry anywhere. -/
theorem test_add_bytes : look (regs (boot [0x00#8, 0xC4#8]) [(0, 0x7F01#16)]) 0 = some (0x8001#16, 2#16, "0S") := by decide

/-- A7: `add [bx], cx` reads, adds and writes the word. -/
theorem test_add_memory :
    lookMem (put (regs (boot [0x01#8, 0x0F#8]) [(1, 0x0101#16), (3, 0x0040#16)]) 0x40 [0xFF#8, 0x00#8]) 0x40 2 =
      some ([0x00#8, 0x02#8], 2#16, "00") := by decide

/-- A10: `add bx, 65535`, the byte sign-extended. -/
theorem test_add_imm_sext : look (regs (boot [0x83#8, 0xC3#8, 0xFF#8]) [(3, 1#16)]) 3 = some (0#16, 3#16, "Z0") := by decide

/-- A13: 0x82 acts as 0x80 and keeps `bh`. -/
theorem test_add_imm_0x82 :
    look (regs (boot [0x82#8, 0xC3#8, 0x80#8]) [(3, 0x0180#16)]) 3 = some (0x0100#16, 3#16, "Z0") := by decide

/-- A16: `add ax, 65535`. -/
theorem test_add_acc : look (regs (boot [0x05#8, 0xFF#8, 0xFF#8]) [(0, 1#16)]) 0 = some (0#16, 3#16, "Z0") := by decide

/-- A17: `add al, 1` does not carry into `ah`. -/
theorem test_add_acc_byte : look (regs (boot [0x04#8, 0x01#8]) [(0, 0x12FF#16)]) 0 = some (0x1200#16, 2#16, "Z0") := by decide

/-- B2: `sub ax, bx` of 0 and 1. -/
theorem test_sub_wraps : look (regs (boot [0x29#8, 0xD8#8]) [(3, 1#16)]) 0 = some (0xFFFF#16, 2#16, "0S") := by decide

/-- B4: `sub bx, [16]`: the order of the operands, and a sign change without an overflow flag. -/
theorem test_sub_from_memory :
    look (put (regs (boot [0x2B#8, 0x1E#8, 0x10#8, 0x00#8]) [(3, 0x8000#16)]) 0x10 [0x01#8]) 3 =
      some (0x7FFF#16, 4#16, "00") := by decide

/-- B10: `sub byte [bx], 1` borrows from no other byte. -/
theorem test_sub_imm_byte :
    lookMem (regs (boot [0x80#8, 0x2F#8, 0x01#8]) [(3, 0x50#16)]) 0x50 2 = some ([0xFF#8, 0x00#8], 3#16, "0S") := by decide

/-- B11: `sub word [bx], 1`. -/
theorem test_sub_imm_word :
    lookMem (regs (boot [0x83#8, 0x2F#8, 0x01#8]) [(3, 0x50#16)]) 0x50 2 = some ([0xFF#8, 0xFF#8], 3#16, "0S") := by decide

/-- B12: `sub ax, 1`. -/
theorem test_sub_acc : look (regs (boot [0x2D#8, 0x01#8, 0x00#8]) [(0, 0x8000#16)]) 0 = some (0x7FFF#16, 3#16, "00") := by
  decide

/-- B13: ZF comes from the byte, though `ax` is not zero. -/
theorem test_sub_acc_byte : look (regs (boot [0x2C#8, 0x10#8]) [(0, 0xFF10#16)]) 0 = some (0xFF00#16, 2#16, "Z0") := by decide

/-- C1: `cmp ax, bx` writes no register. -/
theorem test_cmp : look (regs (boot [0x39#8, 0xD8#8]) [(0, 3#16), (3, 5#16)]) 0 = some (3#16, 2#16, "0S") := by decide

/-- C4: `cmp [bx], al` writes no memory. -/
theorem test_cmp_memory :
    lookMem (regs (boot [0x38#8, 0x07#8]) [(0, 1#16), (3, 0x60#16)]) 0x60 1 = some ([0x00#8], 2#16, "0S") := by decide

/-- C7: `cmp byte [256], 128`. -/
theorem test_cmp_imm_byte :
    lookMem (put (boot [0x80#8, 0x3E#8, 0x00#8, 0x01#8, 0x80#8]) 0x100 [0x7F#8]) 0x100 1 =
      some ([0x7F#8], 5#16, "0S") := by decide

/-- C8: `cmp word [256], 32768`. -/
theorem test_cmp_imm_word :
    lookMem (put (boot [0x81#8, 0x3E#8, 0x00#8, 0x01#8, 0x00#8, 0x80#8]) 0x100 [0xFF#8, 0x7F#8]) 0x100 2 =
      some ([0xFF#8, 0x7F#8], 6#16, "0S") := by decide

/-- C9: `cmp ax, 32768`. -/
theorem test_cmp_acc : look (regs (boot [0x3D#8, 0x00#8, 0x80#8]) [(0, 0x7FFF#16)]) 0 = some (0x7FFF#16, 3#16, "0S") := by
  decide

/-- C10: `cmp al, 5` compares the byte. -/
theorem test_cmp_acc_byte : look (regs (boot [0x3C#8, 0x05#8]) [(0, 0x1205#16)]) 0 = some (0x1205#16, 2#16, "Z0") := by decide

/-! ## Jumps and loops, one step -/

/-- J1 and J2: `jnz $-3` at 6, taken and not. -/
theorem test_jnz :
    seen (bootAt 6#16 [0x75#8, 0xFB#8]) (·.ip) = some 3#16 ∧
    seen { bootAt 6#16 [0x75#8, 0xFB#8] with zf := true } (·.ip) = some 8#16 := by decide

/-- J4 and J5: `ip` wraps at both ends. -/
theorem test_jnz_wraps :
    seen (boot [0x75#8, 0x80#8]) (·.ip) = some 0xFF82#16 ∧
    seen { bootAt 0xFFF0#16 [0x75#8, 0x7F#8] with progLen := 0x10000 } (·.ip) = some 0x0071#16 := by decide

/-- J6: `je` with ZF = 1, under both settings. -/
theorem test_je :
    seen { boot [0x74#8, 0x02#8] with zf := true } (·.ip) = some 2#16 ∧
    seen { bootExt [0x74#8, 0x02#8] with zf := true } (·.ip) = some 4#16 := by decide

/-- J8: `js` with SF = 1. -/
theorem test_js :
    seen { boot [0x78#8, 0x10#8] with sf := true } (·.ip) = some 2#16 ∧
    seen { bootExt [0x78#8, 0x10#8] with sf := true } (·.ip) = some 0x12#16 := by decide

/-- J9 and J10: `jns` under `extended`. -/
theorem test_jns :
    seen { bootExt [0x79#8, 0x10#8] with sf := true } (·.ip) = some 2#16 ∧
    seen (bootExt [0x79#8, 0x10#8]) (·.ip) = some 0x12#16 := by decide

/-- J11 to J13 and the other nine: never taken, whatever the flags. -/
theorem test_never_taken :
    [0x70#8, 0x71#8, 0x72#8, 0x73#8, 0x76#8, 0x77#8, 0x7A#8, 0x7B#8, 0x7C#8, 0x7D#8, 0x7E#8, 0x7F#8].all (fun b =>
      seen (bootExt [b, 0x02#8]) (·.ip) == some 2#16 &&
      seen { bootExt [b, 0x02#8] with zf := true } (·.ip) == some 2#16 &&
      seen { bootExt [b, 0x02#8] with sf := true } (·.ip) == some 2#16) = true := by decide

/-- L2 and L3: `loop` counts to 0 and stops; from 0 it wraps and is taken. -/
theorem test_loop :
    look (regs (bootExt [0xE2#8, 0xFE#8]) [(1, 1#16)]) 1 = some (0#16, 2#16, "00") ∧
    look (regs (bootExt [0xE2#8, 0xFE#8]) [(1, 0#16)]) 1 = some (0xFFFF#16, 0#16, "00") := by decide

/-- L1: under `jnz_only` a loop keeps `cx`. -/
theorem test_loop_jnz_only : look (regs (boot [0xE2#8, 0xFE#8]) [(1, 3#16)]) 1 = some (3#16, 2#16, "00") := by decide

/-- L4 and L5: `loopz`. -/
theorem test_loopz :
    look { regs (bootExt [0xE1#8, 0x05#8]) [(1, 2#16)] with zf := true } 1 = some (1#16, 7#16, "Z0") ∧
    look (regs (bootExt [0xE1#8, 0x05#8]) [(1, 2#16)]) 1 = some (1#16, 2#16, "00") := by decide

/-- L6 and L8: `loopnz`, taken, and at 0 not taken with ZF still 0. -/
theorem test_loopnz :
    look (regs (bootExt [0xE0#8, 0x05#8]) [(1, 2#16)]) 1 = some (1#16, 7#16, "00") ∧
    look (regs (bootExt [0xE0#8, 0x05#8]) [(1, 1#16)]) 1 = some (0#16, 2#16, "00") := by decide

/-- L9 and L10: `jcxz` under both settings, `cx` kept. -/
theorem test_jcxz :
    look (bootExt [0xE3#8, 0x10#8]) 1 = some (0#16, 0x12#16, "00") ∧
    look (boot [0xE3#8, 0x10#8]) 1 = some (0#16, 2#16, "00") ∧
    look (regs (bootExt [0xE3#8, 0x10#8]) [(1, 1#16)]) 1 = some (1#16, 2#16, "00") := by decide

/-! ## Faults and halting -/

/-- M6, M21 and B14: a negative effective address, everything else kept. -/
theorem test_out_of_bounds :
    lookFault (boot [0x8B#8, 0x40#8, 0xFF#8]) = some (.faulted, .memoryOutOfBounds, true) ∧
    lookFault (regs (boot [0x8B#8, 0x87#8, 0x00#8, 0x80#8]) [(3, 0x7FFF#16)]) =
      some (.faulted, .memoryOutOfBounds, true) ∧
    lookFault (regs (boot [0x83#8, 0x68#8, 0x80#8, 0x01#8]) [(3, 0x40#16), (6, 0x3F#16)]) =
      some (.faulted, .memoryOutOfBounds, true) := by decide

/-- X3, X8, A18 and A20: unrecognised bytes, and the selector fault before the operand's. -/
theorem test_unrecognized :
    lookFault (boot [0x90#8]) = some (.faulted, .unrecognizedOpcode, true) ∧
    lookFault (boot [0x8C#8, 0xD8#8]) = some (.faulted, .unrecognizedOpcode, true) ∧
    lookFault (boot [0x80#8, 0xC8#8, 0x01#8]) = some (.faulted, .unrecognizedOpcode, true) ∧
    lookFault (boot [0x80#8, 0x48#8, 0xFF#8, 0x07#8]) = some (.faulted, .unrecognizedOpcode, true) := by decide

/-- X1, X2 and X7: halting at the end, and stopped states that stay. -/
theorem test_halts :
    lookFault (boot []) = some (.halted, .none, true) ∧
    lookFault { boot [0xB0#8, 0x05#8] with ip := 2#16 } = some (.halted, .none, true) ∧
    lookFault { boot [0xB0#8, 0x05#8] with status := .faulted, cause := .unrecognizedOpcode } =
      some (.faulted, .unrecognizedOpcode, true) := by decide

/-- X4: the fetch reads beyond the image, where memory is zero. -/
theorem test_fetch_beyond_image : look (boot [0xB8#8, 0x01#8]) 0 = some (1#16, 3#16, "00") := by decide

/-- P3, step 1: a store into the code. -/
theorem test_store_into_code :
    lookMem (boot [0xC6#8, 0x06#8, 0x06#8, 0x00#8, 0x2A#8, 0xB0#8, 0x00#8]) 5 2 = some ([0xB0#8, 0x2A#8], 5#16, "00") := by
  decide

/-- The canonical form of memory: writing zero unlists, and what is out of order or zero is refused. -/
theorem test_memory_form :
    ((Memory.write [] 5 1#8).write 3 2#8).write 5 0#8 = [(3, 2#8)] ∧
    ¬ Memory.wf [(5, 1#8), (3, 2#8)] ∧ ¬ Memory.wf [(3, 0#8)] ∧ ¬ Memory.wf [(0x100000, 1#8)] := by decide

/-! ## Text -/

/-- The texts of S1, S2, M5, M9 and M10 (R75 to R78). -/
theorem test_text_mov :
    [[0x89#8, 0xD9#8], [0xB0#8, 0x05#8], [0x8B#8, 0x40#8, 0xFF#8], [0x8A#8, 0x46#8, 0x00#8], [0xC6#8, 0x03#8, 0x07#8]].map
      (fun bs => match decode bs with
        | .ok (i, _) => instrText i
        | .error _ => "") =
    ["mov cx, bx", "mov al, 5", "mov ax, [bx + si - 1]", "mov al, [bp + 0]", "mov byte [bp + di], 7"] := by decide

/-- The texts of A14, C10, M20 and J3 (R78 to R80). -/
theorem test_text_others :
    [[0x83#8, 0x06#8, 0x20#8, 0x00#8, 0xFE#8], [0x3C#8, 0x05#8], [0xA2#8, 0x05#8, 0x00#8], [0x75#8, 0xFE#8]].map
      (fun bs => match decode bs with
        | .ok (i, _) => instrText i
        | .error _ => "") =
    ["add word [32], 65534", "cmp al, 5", "mov [5], al", "jnz $+0"] := by decide

/-- The listing of P1 (R82, R205). -/
theorem test_listing :
    listing (boot [0xB9#8, 0x02#8, 0x00#8, 0x83#8, 0xE9#8, 0x01#8, 0x75#8, 0xFB#8]) =
      ["bits 16", "mov cx, 2", "sub cx, 1", "jnz $-3"] := by decide

/-- S9: the lines of the dump (R206, R207). -/
theorem test_dump :
    (dump { State.reset with ip := 8#16, zf := true }).drop 7 = ["\tdi: 0x0000 (0)", "\tip: 0x0008 (8)", "\tflags:Z0"] := by
  decide

/-! ## Witnesses: the hypotheses of each statement can be met -/

/-- A state ready to run given bytes. -/
theorem ready_boot {b : Byte} {bs : List Byte} : Ready (boot (b :: bs)) := ⟨rfl, Nat.succ_pos _⟩

theorem ready_bootExt {b : Byte} {bs : List Byte} : Ready (bootExt (b :: bs)) := ⟨rfl, Nat.succ_pos _⟩

/-- The byte and word forms of bytes at `ip`, as the statements read them. -/
def codeBytes (s : State) : List Byte := [code s 0, code s 1, code s 2, code s 3, code s 4, code s 5]

theorem witness_DecodeOfEncode :
    (Instr.movRmImm 0b111#3 (.disp16 .bp 0xFFFF#16) (.imm16 0xFFFF#16)).wf = true ∧
    (Instr.cmpRmReg .regIsSource .byte (.base .bxSi) 0).wf = true := by decide

theorem witness_EncodeOfDecode : decode [0x75#8, 0xFB#8, 0x01#8] = .ok (.jnz 0xFB#8, [0x01#8]) := by decide

/-- Stopped; at the end; running a decoded instruction on the last byte of an image; running bytes that decode to none. -/
theorem witness_StepRunsDecodedInstruction :
    { State.reset with status := Status.halted }.status ≠ .running ∧
    (State.reset.status = .running ∧ State.reset.progLen ≤ State.reset.ip.toNat) ∧
    (Ready (boot [0xB0#8]) ∧ decode (codeBytes (boot [0xB0#8])) = .ok (.movRegImm 0 (.imm8 0#8), [0#8, 0#8, 0#8, 0#8])) ∧
    (Ready (boot [0x90#8]) ∧ decode (codeBytes (boot [0x90#8])) = .error (.unrecognizedOpcode 0x90#8)) :=
  ⟨by decide, by decide, ⟨ready_boot, by decide⟩, ready_boot, by decide⟩

theorem witness_StepRunsEncodedInstruction :
    (Instr.jnz 0xFB#8).wf = true ∧ Ready (boot [0x75#8, 0xFB#8]) ∧
    ∀ k b, (encode (Instr.jnz 0xFB#8))[k]? = some b → code (boot [0x75#8, 0xFB#8]) k = b := by
  refine ⟨by decide, ready_boot, fun k b h => ?_⟩
  match k with
  | 0 => cases h; decide
  | 1 => cases h; decide
  | k + 2 => simp [encode] at h

/-- At the end, one short of it, and with an image of 65 536 bytes at the last `ip`. -/
theorem witness_HaltsExactlyAtEnd :
    (∃ t, step { boot [0x70#8, 0#8] with ip := 2#16 } = .next t ∧ (t.status == .halted) = true) ∧
    (∃ t, step { boot [0x70#8, 0#8] with ip := 1#16 } = .next t ∧ (t.status == .running) = true) ∧
    (∃ t, step { boot [] with progLen := 65536, ip := 0xFFFF#16 } = .next t ∧ (t.status == .running) = true) :=
  ⟨exists_next _ (by decide), exists_next _ (by decide), exists_next _ (by decide)⟩

/-- Each of the three ways. -/
theorem witness_InstructionPointerThreeWays :
    (∃ t, step (boot [0x90#8]) = .next t ∧ (t.ip == 0#16) = true) ∧
    (∃ t, step (boot [0x72#8, 0x80#8]) = .next t ∧ (t.ip == 2#16) = true) ∧
    (∃ t, step (boot [0x75#8, 0x80#8]) = .next t ∧ (t.ip == 0xFF82#16) = true) :=
  ⟨exists_next _ (by decide), exists_next _ (by decide), exists_next _ (by decide)⟩

/-- An image of the whole memory, and the clauses about a byte of it and about the zeros after it. -/
theorem witness_LaunchLoadsImage :
    (List.replicate 1048576 0xB0#8).length ≤ Config.memSize ∧
    ([0xB0#8, 0x05#8].length ≤ Config.memSize ∧ [0xB0#8, 0x05#8][1]? = some 0x05#8 ∧ [0xB0#8, 0x05#8].length ≤ 2) := by
  exact ⟨le_of_eq List.length_replicate, by decide⟩

theorem witness_InvariantAtReset : (List.replicate 1048576 0xB0#8).length ≤ Config.memSize :=
  le_of_eq List.length_replicate

/-- The invariant holds of a running state, and its step changes memory and flags. -/
theorem witness_StepKeepsInvariant :
    (boot [0x83#8, 0x2F#8, 0x01#8]).Inv ∧
    ∃ t, step (boot [0x83#8, 0x2F#8, 0x01#8]) = .next t ∧ (t.mem == [(0, 0x82#8), (1, 0x2F#8), (2, 0x01#8)]) = true := by
  refine ⟨⟨by decide, by decide, by decide, by decide, by decide⟩, exists_next _ (by decide)⟩

/-- Byte 0 not recognised, at both ends of a gap; the selector not recognised, at both ends of the range; and neither. -/
theorem witness_UnrecognizedOpcodeExactly :
    [[0x06#8], [0x27#8], [0xE4#8], [0xFF#8], [0x80#8, 0b11001000#8], [0x83#8, 0b00110000#8]].all (fun bs =>
      seen (boot bs) (fun t => (t.status, t.cause)) == some (.faulted, .unrecognizedOpcode)) = true ∧
    [[0x05#8], [0x28#8], [0xE3#8], [0x80#8, 0b11000000#8], [0x83#8, 0b00111000#8]].all (fun bs =>
      seen (boot bs) (fun t => (t.status, t.cause)) == some (.running, .none)) = true := by decide

theorem witness_UnrecognizedOpcodeExactly_ready :
    Ready (boot [0x06#8]) ∧ ∃ t, step (boot [0x06#8]) = .next t ∧ (t.cause == .unrecognizedOpcode) = true :=
  ⟨ready_boot, exists_next _ (by decide)⟩

/-- A word access at address -1, and one at address 0. -/
theorem witness_MemoryOutOfBoundsExactly :
    Ready (boot [0x8B#8, 0x40#8, 0xFF#8]) ∧
    (∃ t, step (boot [0x8B#8, 0x40#8, 0xFF#8]) = .next t ∧ (t.cause == .memoryOutOfBounds) = true) ∧
    (∃ t, step (regs (boot [0x8B#8, 0x40#8, 0xFF#8]) [(3, 1#16)]) = .next t ∧ (t.cause == .none) = true) :=
  ⟨ready_boot, exists_next _ (by decide), exists_next _ (by decide)⟩

/-- Both displacement sizes, at address -1 and at the lowest address there is, -32768. -/
theorem witness_NegativeAddressTraps :
    (rmOf (.cmpRmReg .regIsDest .byte (.disp8 .bx 0xFF#8) 0) = some (.disp8 .bx 0xFF#8) ∧
      NegativeAddress (.disp8 .bx 0xFF#8) State.reset.x) ∧
    (rmOf (.movRmImm 0#3 (.disp16 .bp 0x8000#16) (.imm8 0#8)) = some (.disp16 .bp 0x8000#16) ∧
      NegativeAddress (.disp16 .bp 0x8000#16) State.reset.x) :=
  ⟨⟨rfl, .inl ⟨_, _, rfl, by decide⟩⟩, rfl, .inr ⟨_, _, rfl, by decide⟩⟩

theorem witness_FaultsArePrecise :
    (boot [0x90#8]).status = .running ∧
    (∃ t, step (boot [0x90#8]) = .next t ∧ (t.status == .faulted) = true) ∧
    (∃ t, step (boot [0x03#8, 0x40#8, 0xFF#8]) = .next t ∧ (t.status == .faulted) = true) :=
  ⟨rfl, exists_next _ (by decide), exists_next _ (by decide)⟩

/-- Both ends of the register numbers that have byte halves. -/
theorem witness_RegisterOperandHalves : (0 : RegField).val < 4 ∧ (3 : RegField).val < 4 := by decide

/-- Each clause at the ends of the address space: -1 and just past the end; the last byte and the last word. -/
theorem witness_MemReadRule :
    ((-1 : Int) < 0 ∧ (1048576 : Int) < 1048576 + 1) ∧ ((-1 : Int) < 0 ∧ (1048576 : Int) < 1048575 + 2) ∧
    ((0 : Int) ≤ 1048575 ∧ (1048575 : Int) + 1 ≤ 1048576) ∧ ((0 : Int) ≤ 1048574 ∧ (1048574 : Int) + 2 ≤ 1048576) := by
  decide

/-- The same, and the memory of reset is in canonical form. -/
theorem witness_MemWriteRule :
    ((-1 : Int) < 0 ∧ (1048576 : Int) < 1048576 + 1) ∧ ((-1 : Int) < 0 ∧ (1048576 : Int) < 1048575 + 2) ∧
    ((0 : Int) ≤ 1048575 ∧ (1048575 : Int) + 1 ≤ 1048576) ∧ ((0 : Int) ≤ 1048574 ∧ (1048574 : Int) + 2 ≤ 1048576) ∧
    Memory.wf State.reset.mem := by decide

/-- The first address no step reaches, and a step that stores at the two bytes below it. -/
theorem witness_HighMemoryUntouched :
    0x27FFF ≤ 0x27FFF ∧
    ∃ t, step (regs (boot [0xC7#8, 0x80#8, 0xFF#8, 0x7F#8, 0x01#8, 0x01#8]) [(3, 0xFFFF#16), (6, 0xFFFF#16)]) = .next t ∧
      ((t.mem.read 0x27FFD, t.mem.read 0x27FFE, t.mem.read 0x27FFF) == (1#8, 1#8, 0#8)) = true :=
  ⟨by decide, exists_next _ (by decide)⟩

/-- A word load at the highest effective address, 0x27FFD. -/
def farLoad : State := regs (boot [0x8B#8, 0x80#8, 0xFF#8, 0x7F#8]) [(3, 0xFFFF#16), (6, 0xFFFF#16)]

/-- Accessible at the highest effective address, 0x27FFD; not accessible at -1. -/
theorem witness_MovRmRegFromBytes :
    (Ready farLoad ∧ code farLoad 0 = 0b100010#6 ++ BitVec.ofBool true ++ BitVec.ofBool true ∧
      code farLoad 1 = 0b10#2 ++ 0b000#3 ++ 0b000#3 ∧ Accessible (operandAt farLoad 0b10#2 0b000#3)) ∧
    (Ready (boot [0x88#8, 0x40#8, 0xFF#8]) ∧
      code (boot [0x88#8, 0x40#8, 0xFF#8]) 0 = 0b100010#6 ++ BitVec.ofBool false ++ BitVec.ofBool false ∧
      code (boot [0x88#8, 0x40#8, 0xFF#8]) 1 = 0b01#2 ++ 0b000#3 ++ 0b000#3 ∧
      ¬ Accessible (operandAt (boot [0x88#8, 0x40#8, 0xFF#8]) 0b01#2 0b000#3)) :=
  ⟨⟨⟨rfl, by decide⟩, by decide, by decide, accessible_mem 0x27FFD (by decide) (by decide)⟩,
    ready_boot, by decide, by decide, not_accessible_mem (-1) (by decide) (by decide)⟩

/-- Accessible at address 0; not accessible at -32768. -/
theorem witness_MovRmImmFromBytes :
    (Ready (boot [0xC6#8, 0x38#8]) ∧ code (boot [0xC6#8, 0x38#8]) 0 = 0b1100011#7 ++ BitVec.ofBool false ∧
      code (boot [0xC6#8, 0x38#8]) 1 = 0b00#2 ++ 0b111#3 ++ 0b000#3 ∧
      Accessible (operandAt (boot [0xC6#8, 0x38#8]) 0b00#2 0b000#3)) ∧
    (Ready (boot [0xC7#8, 0x87#8, 0x00#8, 0x80#8]) ∧
      code (boot [0xC7#8, 0x87#8, 0x00#8, 0x80#8]) 0 = 0b1100011#7 ++ BitVec.ofBool true ∧
      code (boot [0xC7#8, 0x87#8, 0x00#8, 0x80#8]) 1 = 0b10#2 ++ 0b000#3 ++ 0b111#3 ∧
      ¬ Accessible (operandAt (boot [0xC7#8, 0x87#8, 0x00#8, 0x80#8]) 0b10#2 0b111#3)) :=
  ⟨⟨ready_boot, by decide, by decide, accessible_mem 0 (by decide) (by decide)⟩,
    ready_boot, by decide, by decide, not_accessible_mem (-32768) (by decide) (by decide)⟩

theorem witness_MovRegImmFromBytes :
    Ready (boot [0xBF#8]) ∧ code (boot [0xBF#8]) 0 = 0b1011#4 ++ BitVec.ofBool true ++ 0b111#3 := ⟨ready_boot, by decide⟩

theorem witness_MovAccMemFromBytes :
    Ready (boot [0xA1#8, 0xFF#8, 0xFF#8]) ∧ code (boot [0xA1#8, 0xFF#8, 0xFF#8]) 0 = 0b1010000#7 ++ BitVec.ofBool true :=
  ⟨ready_boot, by decide⟩

theorem witness_MovMemAccFromBytes :
    Ready (boot [0xA2#8, 0xFF#8, 0xFF#8]) ∧ code (boot [0xA2#8, 0xFF#8, 0xFF#8]) 0 = 0b1010001#7 ++ BitVec.ofBool false :=
  ⟨ready_boot, by decide⟩

/-- A register operand, and a memory operand at the highest and at the lowest accessible address. -/
theorem witness_MovCompletes :
    Accessible (resolve (.reg 7) State.reset.x) ∧
    Accessible (resolve (.disp16 .bxSi 0x7FFF#16) (regs State.reset [(3, 0xFFFF#16), (6, 0xFFFF#16)]).x) ∧
    Accessible (resolve (.base .bx) State.reset.x) :=
  ⟨(fun _ h => by cases h), accessible_mem 0x27FFD (by decide) (by decide), accessible_mem 0 (by decide) (by decide)⟩

/-- For each of ADD, SUB and CMP: accessible at 0, not accessible at -1. -/
theorem witness_ArithRmRegFromBytes : ∀ k : ArithKind,
    (Ready (boot [opcodeRm k ++ 0b11#2, 0x00#8]) ∧
      code (boot [opcodeRm k ++ 0b11#2, 0x00#8]) 0 = opcodeRm k ++ BitVec.ofBool true ++ BitVec.ofBool true ∧
      code (boot [opcodeRm k ++ 0b11#2, 0x00#8]) 1 = 0b00#2 ++ 0b000#3 ++ 0b000#3 ∧
      Accessible (operandAt (boot [opcodeRm k ++ 0b11#2, 0x00#8]) 0b00#2 0b000#3)) ∧
    (Ready (boot [opcodeRm k ++ 0b01#2, 0x40#8, 0xFF#8]) ∧
      code (boot [opcodeRm k ++ 0b01#2, 0x40#8, 0xFF#8]) 0 = opcodeRm k ++ BitVec.ofBool false ++ BitVec.ofBool true ∧
      code (boot [opcodeRm k ++ 0b01#2, 0x40#8, 0xFF#8]) 1 = 0b01#2 ++ 0b000#3 ++ 0b000#3 ∧
      ¬ Accessible (operandAt (boot [opcodeRm k ++ 0b01#2, 0x40#8, 0xFF#8]) 0b01#2 0b000#3)) := by
  intro k
  refine ⟨⟨ready_boot, ?_, ?_, accessible_mem 0 ?_ (by decide)⟩, ready_boot, ?_, ?_, not_accessible_mem (-1) ?_ (by decide)⟩ <;>
    cases k <;> decide

/-- For each of ADD, SUB and CMP its selector, on a register, and at address -1; and a selector that is none of the three. -/
theorem witness_ArithRmImmFromBytes :
    (∀ k : ArithKind,
      (Ready (boot [0x83#8, 0b11#2 ++ selector k ++ 0b000#3]) ∧
        code (boot [0x83#8, 0b11#2 ++ selector k ++ 0b000#3]) 0 = 0b100000#6 ++ BitVec.ofBool true ++ BitVec.ofBool true ∧
        code (boot [0x83#8, 0b11#2 ++ selector k ++ 0b000#3]) 1 = 0b11#2 ++ selector k ++ 0b000#3 ∧
        Accessible (operandAt (boot [0x83#8, 0b11#2 ++ selector k ++ 0b000#3]) 0b11#2 0b000#3)) ∧
      (Ready (boot [0x80#8, 0b01#2 ++ selector k ++ 0b000#3, 0xFF#8]) ∧
        code (boot [0x80#8, 0b01#2 ++ selector k ++ 0b000#3, 0xFF#8]) 0 =
          0b100000#6 ++ BitVec.ofBool false ++ BitVec.ofBool false ∧
        code (boot [0x80#8, 0b01#2 ++ selector k ++ 0b000#3, 0xFF#8]) 1 = 0b01#2 ++ selector k ++ 0b000#3 ∧
        ¬ Accessible (operandAt (boot [0x80#8, 0b01#2 ++ selector k ++ 0b000#3, 0xFF#8]) 0b01#2 0b000#3))) ∧
    (Ready (boot [0x80#8, 0xC8#8]) ∧
      code (boot [0x80#8, 0xC8#8]) 0 = 0b100000#6 ++ BitVec.ofBool false ++ BitVec.ofBool false ∧
      code (boot [0x80#8, 0xC8#8]) 1 = 0b11#2 ++ 0b001#3 ++ 0b000#3 ∧ ∀ k, 0b001#3 ≠ selector k) := by
  refine ⟨fun k => ⟨⟨ready_boot, ?_, ?_, fun a h => ?_⟩, ready_boot, ?_, ?_, not_accessible_mem (-1) ?_ (by decide)⟩,
    ready_boot, by decide, by decide, fun k => ?_⟩
  case refine_3 => cases h
  all_goals cases k <;> decide

theorem witness_ArithAccImmFromBytes : ∀ k : ArithKind,
    Ready (boot [opcodeAcc k ++ 0b1#1]) ∧
      code (boot [opcodeAcc k ++ 0b1#1]) 0 = opcodeAcc k ++ BitVec.ofBool true := by
  intro k
  refine ⟨ready_boot, ?_⟩
  cases k <;> decide

/-- As for MOV. -/
theorem witness_ArithCompletes :
    Accessible (resolve (.reg 0) State.reset.x) ∧ Accessible (resolve (.direct 0xFFFF#16) State.reset.x) ∧
    Accessible (resolve (.disp8 .bx 0xFF#8) (regs State.reset [(3, 1#16)]).x) :=
  ⟨(fun _ h => by cases h), accessible_mem 0xFFFF (by decide) (by decide), accessible_mem 0 (by decide) (by decide)⟩

theorem witness_TwelveJumpsNeverTaken :
    (Ready (boot [0x70#8]) ∧ code (boot [0x70#8]) 0 = 0x70#8) ∧ (Ready (bootExt [0x7F#8]) ∧ code (bootExt [0x7F#8]) 0 = 0x7F#8) :=
  ⟨⟨ready_boot, by decide⟩, ready_bootExt, by decide⟩

theorem witness_JnzFromBytes : Ready (boot [0x75#8, 0xFB#8]) ∧ code (boot [0x75#8, 0xFB#8]) 0 = 0x75#8 :=
  ⟨ready_boot, by decide⟩

theorem witness_FlagJumpsFromBytes :
    (Ready (bootExt [0x74#8]) ∧ code (bootExt [0x74#8]) 0 = 0x74#8) ∧ (Ready (bootExt [0x78#8]) ∧ code (bootExt [0x78#8]) 0 = 0x78#8) ∧
    (Ready (boot [0x79#8]) ∧ code (boot [0x79#8]) 0 = 0x79#8) :=
  ⟨⟨ready_bootExt, by decide⟩, ⟨ready_bootExt, by decide⟩, ready_boot, by decide⟩

theorem witness_JcxzFromBytes : Ready (bootExt [0xE3#8]) ∧ code (bootExt [0xE3#8]) 0 = 0xE3#8 := ⟨ready_bootExt, by decide⟩

/-- Both settings; each of the three bytes under `extended`. -/
theorem witness_LoopsFromBytes :
    (Ready (boot [0xE0#8]) ∧ (boot [0xE0#8]).branchExec = .jnzOnly ∧ code (boot [0xE0#8]) 0 = 0xE0#8) ∧
    (Ready (bootExt [0xE0#8]) ∧ (bootExt [0xE0#8]).branchExec = .extended ∧ code (bootExt [0xE0#8]) 0 = 0xE0#8) ∧
    (Ready (bootExt [0xE1#8]) ∧ (bootExt [0xE1#8]).branchExec = .extended ∧ code (bootExt [0xE1#8]) 0 = 0xE1#8) ∧
    (Ready (bootExt [0xE2#8]) ∧ (bootExt [0xE2#8]).branchExec = .extended ∧ code (bootExt [0xE2#8]) 0 = 0xE2#8) :=
  ⟨⟨ready_boot, rfl, by decide⟩, ⟨ready_bootExt, rfl, by decide⟩, ⟨ready_bootExt, rfl, by decide⟩, ready_bootExt, rfl, by decide⟩

/-- A jump taken and one not taken, under each setting, and a loop whose `cx` wraps. -/
theorem witness_JumpsComplete :
    taken .jnzOnly .jnz false false 0#16 ∧ ¬ taken .jnzOnly .loop false false 1#16 ∧
    taken .extended .loop false false (bootExt []).decCx.cx ∧ ¬ taken .extended .jcxz false false 1#16 := by
  refine ⟨?_, ?_, ?_, ?_⟩ <;> unfold taken <;> decide

/-- A byte destination in a high half, a word destination, and a loop. -/
theorem witness_RegisterFrame :
    (∃ t, exec (.movRegImm 4 (.imm8 7#8)) State.reset = .next t ∧
      dest (.movRegImm 4 (.imm8 7#8)) State.reset.x = some (.reg 4, .byte) ∧ (1 : RegField) ≠ holder 4 .byte) ∧
    (∃ t, exec (.movRegImm 7 (.imm16 7#16)) State.reset = .next t ∧
      dest (.movRegImm 7 (.imm16 7#16)) State.reset.x = some (.reg 7, .word) ∧ (0 : RegField) ≠ holder 7 .word) ∧
    (∃ t, exec (.loop 0#8) (bootExt []) = .next t ∧ dest (.loop 0#8) (bootExt []).x = none) :=
  ⟨⟨_, rfl, rfl, by decide⟩, ⟨_, rfl, rfl, by decide⟩, _, rfl, rfl⟩

theorem witness_FlagFrame :
    (∃ t, exec (.movRegImm 0 (.imm8 5#8)) State.reset = .next t) ∧ writesFlags (.movRegImm 0 (.imm8 5#8)) = false ∧
    (∃ t, exec (.loop 0#8) (bootExt []) = .next t) ∧ writesFlags (.loop 0#8) = false :=
  ⟨⟨_, rfl⟩, rfl, ⟨_, rfl⟩, rfl⟩

/-- The bytes just below and just above a stored word; and a form that stores nothing. -/
theorem witness_MemoryFrame :
    (∃ t, exec (.movMemAcc .word 5#16) State.reset = .next t ∧ (t.mem == []) = true) ∧
    dest (.movMemAcc .word 5#16) State.reset.x = some (.mem 5, .word) ∧
    ((4 : Int) < 5 ∧ (5 : Int) + Width.word.bytes ≤ 7) ∧
    (∃ t, exec (.cmpAccImm (.imm8 0#8)) State.reset = .next t ∧ t.zf = true) ∧ dest (.cmpAccImm (.imm8 0#8)) State.reset.x = none :=
  ⟨exists_next_in _ (by decide), rfl, by decide, exists_next_in _ (by decide), rfl⟩

/-- A completed instruction and one that faults. -/
theorem witness_ControlFrame :
    (∃ t, exec (.jo 0#8) State.reset = .next t) ∧
    exec (.cmpRmReg .regIsDest .byte (.disp8 .bx 0xFF#8) 0) State.reset = .next (raisedOutOfBounds State.reset) :=
  ⟨⟨_, rfl⟩, rfl⟩

end Sys2Proof.Tests
end

