-- ==== Sys2Proof/Proofs/Memory.lean ====
section
/-! PROOF. The obligations about memory accesses: `MemRead` (R32) and `MemWrite` (R33). -/

namespace Sys2Proof

/-! ## The bytes of a word as numbers (R35) -/

theorem le16_eq_ofNat (lo hi : Byte) : le16 lo hi = BitVec.ofNat 16 (256 * hi.toNat + lo.toNat) := by
  rw [← le16_toNat, BitVec.ofNat_toNat, BitVec.setWidth_eq]

theorem lowByte_eq_ofNat (v : Word) : lowByte v = BitVec.ofNat 8 (v.toNat % 256) := by
  rw [← lowByte_toNat, BitVec.ofNat_toNat, BitVec.setWidth_eq]

theorem highByte_eq_ofNat (v : Word) : highByte v = BitVec.ofNat 8 (v.toNat / 256) := by
  rw [← highByte_toNat, BitVec.ofNat_toNat, BitVec.setWidth_eq]

end Sys2Proof

namespace Sys2Proof.Machine

/-! ## The bounds of an access (R31) -/

theorem inBounds_iff (a : Int) (w : Width) : inBounds a w.bytes ↔ 0 ≤ a ∧ a + w.bytes ≤ 1048576 := Iff.rfl

theorem not_inBounds_iff (a : Int) (w : Width) : ¬ inBounds a w.bytes ↔ a < 0 ∨ 1048576 < a + w.bytes := by
  rw [inBounds_iff, not_and_or, not_le, not_le]

/-! ## The bytes of memory after a store (R33) -/

theorem Memory.read_writeAt_byte (m : Memory) (a : Nat) (b : Byte) (c : Nat) :
    (m.writeAt a .byte b).read c = if c = a then b else m.read c := Memory.read_write m a b c

/-- The two addresses of a word differ, so neither byte overwrites the other. -/
theorem Memory.read_writeAt_word (m : Memory) (a : Nat) (v : Word) (c : Nat) :
    (m.writeAt a .word v).read c =
      if c = a then lowByte v else if c = a + 1 then highByte v else m.read c := by
  rw [Memory.writeAt, Memory.read_write, Memory.read_write]
  by_cases ha : c = a
  · have hne : c ≠ a + 1 := by omega
    rw [if_neg hne, if_pos ha, if_pos ha]
  · rw [if_neg ha, if_neg ha]

/-- The check of the integer address gives the bound on natural addresses that the canonical form asks for (R31). -/
theorem Memory.wf_writeAt_of_inBounds {m : Memory} (hm : m.wf) {a : Int} {w : Width} (v : BitVec w.bits)
    (h : inBounds a w.bytes) : (m.writeAt a.toNat w v).wf := by
  obtain ⟨hlo, hhi⟩ := h
  exact Memory.wf_writeAt hm w v (by omega)

/-! ## The obligations -/

/-- Settles O18: inside the bounds by the value `Memory.readAt` gives at each width, outside them by the fault. -/
theorem memReadRule : Obligations.MemReadRule := by
  intro s a
  refine ⟨fun h => ?_, fun h => ?_, fun hlo hhi => ?_, fun hlo hhi => ?_⟩
  · exact State.memRead_of_not ((not_inBounds_iff a .byte).2 h)
  · exact State.memRead_of_not ((not_inBounds_iff a .word).2 h)
  · exact State.memRead_of_inBounds ((inBounds_iff a .byte).2 ⟨hlo, hhi⟩)
  · rw [State.memRead_of_inBounds ((inBounds_iff a .word).2 ⟨hlo, hhi⟩), Memory.readAt, le16_eq_ofNat]

/-- Settles O19: outside the bounds by the fault, inside them by what each byte reads after the store. -/
theorem memWriteRule : Obligations.MemWriteRule := by
  intro s a b v
  refine ⟨fun h => ?_, fun h => ?_, fun hlo hhi => ?_, fun hlo hhi => ?_⟩
  · exact State.memWrite_of_not ((not_inBounds_iff a .byte).2 h)
  · exact State.memWrite_of_not ((not_inBounds_iff a .word).2 h)
  · have hin : inBounds a Width.byte.bytes := (inBounds_iff a .byte).2 ⟨hlo, hhi⟩
    refine ⟨_, State.memWrite_of_inBounds hin, fun hm => Memory.wf_writeAt_of_inBounds hm _ hin, fun c => ?_⟩
    have hc : c = a.toNat ↔ (c : Int) = a := by omega
    rw [Memory.read_writeAt_byte]
    simp only [hc]
  · have hin : inBounds a Width.word.bytes := (inBounds_iff a .word).2 ⟨hlo, hhi⟩
    refine ⟨_, State.memWrite_of_inBounds hin, fun hm => Memory.wf_writeAt_of_inBounds hm _ hin, fun c => ?_⟩
    have hc : c = a.toNat ↔ (c : Int) = a := by omega
    have hc' : c = a.toNat + 1 ↔ (c : Int) = a + 1 := by omega
    rw [Memory.read_writeAt_word, lowByte_eq_ofNat, highByte_eq_ofNat]
    simp only [hc, hc']

end Sys2Proof.Machine
end

