-- ==== Sys2Proof/Proofs/Operands.lean ====
section
/-! PROOF. The obligation about the operand resolver, `Resolve` (R95 to R98). -/

namespace Sys2Proof.Machine

open Sys2Proof.Claims

/-! ## The model's words and the statements' words for an address -/

/-- The sums of the model's base expressions are the table of R96, each at its own field value. -/
theorem Base.sum_eq_baseAt_field (b : Base) (x : Regs) : Base.sum b x = baseAt x b.field := by cases b <;> rfl

theorem Base.sum_ofField (x : Regs) (rm : BitVec 3) : Base.sum (Base.ofField rm) x = baseAt x rm := by
  rw [Base.sum_eq_baseAt_field, Base.field_ofField]

theorem code16_eq_le16 (s : State) (k : Nat) : code16 s k = le16 (code s k) (code s (k + 1)) :=
  (le16_eq_ofNat _ _).symm

/-- The four values of `mod`, in the order in which R95 asks for them. -/
theorem mod_cases : ∀ mod : BitVec 2, mod = 0b11#2 ∨ mod = 0b00#2 ∨ mod = 0b01#2 ∨ mod = 0b10#2 := by decide

/-! ## The operand of each addressing form (R95) -/

theorem resolve_direct (s : State) :
    resolve (.direct (le16 (code s 2) (code s 3))) s.x = operandAt s 0b00#2 0b110#3 := by
  rw [← code16_eq_le16 s 2]
  rfl

theorem resolve_base (s : State) {rm : BitVec 3} (h : rm ≠ 0b110#3) :
    resolve (.base (Base.ofField rm)) s.x = operandAt s 0b00#2 rm := by
  simp [resolve, operandAt, h, Base.sum_ofField]

theorem resolve_disp8 (s : State) (rm : BitVec 3) :
    resolve (.disp8 (Base.ofField rm) (code s 2)) s.x = operandAt s 0b01#2 rm := by
  rw [resolve, Base.sum_ofField]
  rfl

theorem resolve_disp16 (s : State) (rm : BitVec 3) :
    resolve (.disp16 (Base.ofField rm) (le16 (code s 2) (code s 3))) s.x = operandAt s 0b10#2 rm := by
  rw [resolve, Base.sum_ofField, ← code16_eq_le16 s 2]
  rfl

/-! ## The obligation -/

/-- Settles O4: in each case of R95 the term that `decodeRm` reads, the bytes it leaves, and the operand of that term. -/
theorem resolveRule : Obligations.ResolveRule := by
  intro s mod rm
  rcases mod_cases mod with rfl | rfl | rfl | rfl
  · exact ⟨.reg (regOfField rm), [code s 2, code s 3, code s 4, code s 5], rfl, rfl, rfl⟩
  · by_cases h : rm = 0b110#3
    · subst h
      exact ⟨.direct (le16 (code s 2) (code s 3)), [code s 4, code s 5], rfl, resolve_direct s, rfl⟩
    · refine ⟨.base (Base.ofField rm), [code s 2, code s 3, code s 4, code s 5], ?_, resolve_base s h, ?_⟩
      · simp [decodeRm, h]
      · simp [dispAt, h]
  · exact ⟨.disp8 (Base.ofField rm) (code s 2), [code s 3, code s 4, code s 5], rfl, resolve_disp8 s rm, rfl⟩
  · exact ⟨.disp16 (Base.ofField rm) (le16 (code s 2) (code s 3)), [code s 4, code s 5], rfl, resolve_disp16 s rm, rfl⟩

end Sys2Proof.Machine
end

