-- ==== Sys2Proof/Proofs/FromBytes.lean ====
section
/-! PROOF. From the bytes at `ip` to the instruction a step runs (R50, R90), and from an operand to what an access to it
does (R100, R101): the rules that every statement about an instruction's bytes uses. -/

namespace Sys2Proof

/-! ## The fields of byte 0 (R53 to R56) -/

theorem dBit_opcodeRm : ∀ (op : BitVec 6) (d w : Bool), dBit (op ++ BitVec.ofBool d ++ BitVec.ofBool w) = d := by decide

theorem wBit_opcodeRm : ∀ (op : BitVec 6) (d w : Bool), wBit (op ++ BitVec.ofBool d ++ BitVec.ofBool w) = w := by decide

theorem wBit_opcode7 : ∀ (op : BitVec 7) (w : Bool), wBit (op ++ BitVec.ofBool w) = w := by decide

theorem irWBit_opcode4 : ∀ (op : BitVec 4) (w : Bool) (reg : BitVec 3), irWBit (op ++ BitVec.ofBool w ++ reg) = w := by
  decide

theorem lowField_opcode4 : ∀ (op : BitVec 4) (w : Bool) (reg : BitVec 3),
    lowField (op ++ BitVec.ofBool w ++ reg) = reg := by decide

/-! ## The parts of an instruction -/

/-- Once byte 0 selects a form, decoding is reading that form (R93). -/
theorem decode_of_dispatch {b0 : Byte} {f : Form} (h : dispatch b0 = some f) (bs : List Byte) :
    decode (b0 :: bs) = decodeForm f b0 bs := by
  simp only [decode, h]

theorem wordBytes_le16 (lo hi : Byte) : wordBytes (le16 lo hi) = [lo, hi] := by simp [wordBytes]

theorem decodeByte_ok {bs rest : List Byte} {b : Byte} (h : decodeByte bs = .ok (b, rest)) : bs = b :: rest := by
  cases bs with
  | nil => cases h
  | cons c cs =>
    cases h
    rfl

theorem decodeWord_ok {bs rest : List Byte} {v : Word} (h : decodeWord bs = .ok (v, rest)) :
    bs = wordBytes v ++ rest := by
  match bs, h with
  | lo :: hi :: cs, h =>
    cases h
    rw [wordBytes_le16]
    rfl

theorem Decoded.wrap_eq_ok {α β : Type} {r : Decoded α} {f : α → β} {b : β} {rest : List Byte}
    (h : r.wrap f = .ok (b, rest)) : ∃ a, r = .ok (a, rest) ∧ b = f a := by
  match r, h with
  | .ok (a, _), h =>
    cases h
    exact ⟨a, rfl, rfl⟩

/-- Reading an operand consumes exactly its displacement bytes (R61). -/
theorem decodeRm_ok {mod : BitVec 2} {rm : BitVec 3} {bs rest : List Byte} {r : Rm}
    (h : decodeRm mod rm bs = .ok (r, rest)) : bs = r.dispBytes ++ rest := by
  unfold decodeRm at h
  split at h
  · cases h
    rfl
  split at h
  · split at h
    · obtain ⟨v, hv, rfl⟩ := Decoded.wrap_eq_ok h
      exact decodeWord_ok hv
    · cases h
      rfl
  split at h
  · obtain ⟨b, hb, rfl⟩ := Decoded.wrap_eq_ok h
    exact decodeByte_ok hb
  · obtain ⟨v, hv, rfl⟩ := Decoded.wrap_eq_ok h
    exact decodeWord_ok hv

theorem decodeAddressing_fields (mod : BitVec 2) (mid rm : BitVec 3) (bs : List Byte) :
    decodeAddressing ((mod ++ mid ++ rm) :: bs) = (decodeRm mod rm bs).wrap fun r => (mid, r) := by
  obtain ⟨hmod, hmid, hrm⟩ := addressing_fields mod mid rm
  unfold addressingByte at hmod hmid hrm
  rw [decodeAddressing, decodeByte_cons, Decoded.andThen_ok, hmod, hmid, hrm]

/-- Format RM from its fields, once its operand is read (R53). -/
theorem decodeRmReg_fields {mod : BitVec 2} {rm : BitVec 3} {bs rest : List Byte} {r : Rm}
    (h : decodeRm mod rm bs = .ok (r, rest)) (mk : Dir → Width → Rm → RegField → Instr) (op : BitVec 6) (d w : Bool)
    (reg : BitVec 3) :
    decodeRmReg mk (op ++ BitVec.ofBool d ++ BitVec.ofBool w) ((mod ++ reg ++ rm) :: bs) =
      .ok (mk (dirOfBit d) (widthOfBit w) r reg.toFin, rest) := by
  rw [decodeRmReg, decodeAddressing_fields, h, dBit_opcodeRm, wBit_opcodeRm]
  rfl

end Sys2Proof

namespace Sys2Proof.Machine

open Sys2Proof.Claims

/-! ## The step (R90) -/

/-- A step that fetches runs the instruction its bytes decode to. -/
theorem step_of_decode {s : State} {i : Instr} {rest : List Byte} (hs : Ready s)
    (h : decode [code s 0, code s 1, code s 2, code s 3, code s 4, code s 5] = .ok (i, rest)) : step s = exec i s := by
  obtain ⟨hrun, hip⟩ := hs
  have hend : s.atEnd = false := by simpa [State.atEnd] using hip
  have hbytes : s.fetchBytes = [code s 0, code s 1, code s 2, code s 3, code s 4, code s 5] := rfl
  have hfetch : s.fetch = .ok i := by
    rw [State.fetch, hbytes, h]
  simp [step, hrun, hend, hfetch]

/-- `ip` past `n` bytes, in the integers and in words (R19). -/
theorem ipPlus_natCast (s : State) (n : Nat) : ipPlus s n = s.ip + BitVec.ofNat 16 n := by
  rw [ipPlus, BitVec.ofInt_add, BitVec.ofInt_natCast, BitVec.ofInt_natCast, BitVec.ofNat_toNat, BitVec.setWidth_eq]

/-! ## The operand and the immediate at `ip` (R61, R62) -/

/-- The operand in the four bytes after the addressing byte, and the bytes left for an immediate. -/
theorem decodeRm_code (s : State) (mod : BitVec 2) (rm : BitVec 3) :
    ∃ r bs, decodeRm mod rm [code s 2, code s 3, code s 4, code s 5] =
        .ok (r, code s (2 + dispAt mod rm) :: code s (2 + dispAt mod rm + 1) :: bs) ∧
      resolve r s.x = operandAt s mod rm ∧ r.dispLen = dispAt mod rm := by
  obtain ⟨r, rest, hdec, hres, hlen⟩ := resolveRule s mod rm
  obtain ⟨hdisp, hle⟩ := Laws.Length.dispBytes_length r
  have hbytes := decodeRm_ok hdec
  have hdispLen : r.dispLen = dispAt mod rm := by
    have := congrArg List.length hbytes
    simp only [List.length_cons, List.length_nil, List.length_append] at this
    omega
  have hrest : rest = [code s 2, code s 3, code s 4, code s 5].drop (dispAt mod rm) := by
    rw [hbytes, List.drop_left' (hdisp.trans hdispLen)]
  rw [hdec, hrest]
  match hn : dispAt mod rm with
  | 0 => exact ⟨r, _, rfl, hres, hdispLen.trans hn⟩
  | 1 => exact ⟨r, _, rfl, hres, hdispLen.trans hn⟩
  | 2 => exact ⟨r, _, rfl, hres, hdispLen.trans hn⟩
  | n + 3 => omega

/-- The immediate term that byte `k` and up hold (R62). -/
def immTerm (s : State) (w : Bool) (k : Nat) : Imm :=
  match w with
  | false => .imm8 (code s k)
  | true => .imm16 (code16 s k)

theorem decodeImm_code (s : State) (w : Bool) (k : Nat) (bs : List Byte) :
    ∃ rest, decodeImm (widthOfBit w) (code s k :: code s (k + 1) :: bs) = .ok (immTerm s w k, rest) := by
  cases w with
  | false => exact ⟨_, rfl⟩
  | true => exact ⟨bs, by rw [immTerm, code16_eq_le16]; rfl⟩

theorem immTerm_len (s : State) (w : Bool) (k : Nat) : (immTerm s w k).len = (width w).bytes := by cases w <;> rfl

/-- Whatever is made of the width and the value of an immediate term is made of `immAt`. -/
theorem immTerm_value (s : State) (w : Bool) (k : Nat) {α : Type} (f : (v : Width) → BitVec v.bits → α) :
    f (immTerm s w k).width (Imm.value (immTerm s w k)) = f (width w) (immAt s w k) := by cases w <;> rfl

/-! ## Accesses to an operand (R100, R101) -/

/-- An access of width `w` to the operand is in bounds. -/
def Operand.InBounds (op : Operand) (w : Width) : Prop := ∀ a, op = .mem a → inBounds a w.bytes

theorem Operand.inBounds_reg (i : RegField) (w : Width) : (Operand.reg i).InBounds w := fun _ h => by cases h

theorem Operand.inBounds_mem {a : Int} {w : Width} : (Operand.mem a).InBounds w ↔ inBounds a w.bytes :=
  ⟨fun h => h a rfl, fun h b hb => by cases hb; exact h⟩

/-- The accessible operands of R184 are the ones in bounds, whatever the width. -/
theorem Operand.inBounds_resolve (rm : Rm) (x : Regs) (w : Width) :
    (resolve rm x).InBounds w ↔ Accessible (resolve rm x) :=
  forall_congr' fun _ => forall_congr' fun h => Machine.inBounds_resolve h w

theorem State.opRd_of_inBounds {s : State} {op : Operand} {w : Width} (h : op.InBounds w) :
    s.opRd op w = .ok (getOperand s op w) := by
  cases op with
  | reg i => rfl
  | mem a => exact State.memRead_of_inBounds (h a rfl)

theorem State.opRd_of_not_inBounds {s : State} {op : Operand} {w : Width} (h : ¬ op.InBounds w) :
    s.opRd op w = .error .memoryOutOfBounds := by
  cases op with
  | reg i => exact absurd (Operand.inBounds_reg i w) h
  | mem a => exact State.memRead_of_not (mt Operand.inBounds_mem.2 h)

theorem State.opWr_of_inBounds {s : State} {op : Operand} {w : Width} {v : BitVec w.bits} (h : op.InBounds w) :
    s.opWr op w v = .ok (putOperand s op w v) := by
  cases op with
  | reg i => rfl
  | mem a => exact State.memWrite_of_inBounds (h a rfl)

theorem State.opWr_of_not_inBounds {s : State} {op : Operand} {w : Width} {v : BitVec w.bits} (h : ¬ op.InBounds w) :
    s.opWr op w v = .error .memoryOutOfBounds := by
  cases op with
  | reg i => exact absurd (Operand.inBounds_reg i w) h
  | mem a => exact State.memWrite_of_not (mt Operand.inBounds_mem.2 h)

@[simp] theorem putOperand_ip (s : State) (op : Operand) (w : Width) (v : BitVec w.bits) :
    (putOperand s op w v).ip = s.ip := by cases op <;> rfl

end Sys2Proof.Machine
end

