-- ==== Sys2Proof/Proofs/Mov.lean ====
section
/-! PROOF. The obligations about the five MOV instructions from their bytes (R120 to R124): the two bodies they share, what
each instruction does, and the instruction each encoding holds. -/

namespace Sys2Proof

/-! ## The opcodes (R120 to R124) -/

theorem dispatch_movRmReg : ∀ d w : Bool,
    dispatch (0b100010#6 ++ BitVec.ofBool d ++ BitVec.ofBool w) = some .rmMov := by decide

theorem dispatch_movRmImm : ∀ w : Bool, dispatch (0b1100011#7 ++ BitVec.ofBool w) = some .irm := by decide

theorem dispatch_movRegImm : ∀ (w : Bool) (reg : BitVec 3),
    dispatch (0b1011#4 ++ BitVec.ofBool w ++ reg) = some .ir := by decide

theorem dispatch_movAccMem : ∀ w : Bool, dispatch (0b1010000#7 ++ BitVec.ofBool w) = some .maLoad := by decide

theorem dispatch_movMemAcc : ∀ w : Bool, dispatch (0b1010001#7 ++ BitVec.ofBool w) = some .maStore := by decide

/-- Format IRM from its fields, once its operand and its immediate are read (R54). -/
theorem decodeIrm_fields {mod : BitVec 2} {rm : BitVec 3} {bs bs' rest : List Byte} {r : Rm} {imm : Imm} {w : Bool}
    (hrm : decodeRm mod rm bs = .ok (r, bs')) (himm : decodeImm (widthOfBit w) bs' = .ok (imm, rest)) (op : BitVec 7)
    (ign : BitVec 3) :
    decodeIrm (op ++ BitVec.ofBool w) ((mod ++ ign ++ rm) :: bs) = .ok (.movRmImm ign r imm, rest) := by
  rw [decodeIrm, decodeAddressing_fields, hrm, wBit_opcode7, Decoded.wrap_ok, Decoded.andThen_ok, himm]
  rfl

end Sys2Proof

namespace Sys2Proof.Machine

open Sys2Proof.Claims

/-! ## The two bodies (R125) -/

/-- The state after copying a value into an operand and going on past `n` bytes (R125). -/
def moved (s : State) (dst : Operand) (w : Width) (v : BitVec w.bits) (n : Nat) : State :=
  { putOperand s dst w v with ip := ipPlus s n }

theorem State.moveTo_of_inBounds {s : State} {dst : Operand} {w : Width} {v : BitVec w.bits} {len : Nat}
    (h : dst.InBounds w) : s.moveTo dst w v len = .ok (moved s dst w v len) := by
  rw [State.moveTo, State.opWr_of_inBounds h, moved, ipPlus_natCast, ← putOperand_ip s dst w v]
  rfl

theorem State.moveTo_of_not_inBounds {s : State} {dst : Operand} {w : Width} {v : BitVec w.bits} {len : Nat}
    (h : ¬ dst.InBounds w) : s.moveTo dst w v len = .error .memoryOutOfBounds := by
  rw [State.moveTo, State.opWr_of_not_inBounds h]

theorem State.move_of_inBounds {s : State} {dst src : Operand} {w : Width} {len : Nat} (hdst : dst.InBounds w)
    (hsrc : src.InBounds w) : s.move dst src w len = .ok (moved s dst w (getOperand s src w) len) := by
  rw [State.move, State.opRd_of_inBounds hsrc]
  exact State.moveTo_of_inBounds hdst

theorem State.move_of_src_not_inBounds {s : State} {dst src : Operand} {w : Width} {len : Nat}
    (hsrc : ¬ src.InBounds w) : s.move dst src w len = .error .memoryOutOfBounds := by
  rw [State.move, State.opRd_of_not_inBounds hsrc]

theorem State.move_of_dst_not_inBounds {s : State} {dst src : Operand} {w : Width} {len : Nat}
    (hsrc : src.InBounds w) (hdst : ¬ dst.InBounds w) : s.move dst src w len = .error .memoryOutOfBounds := by
  rw [State.move, State.opRd_of_inBounds hsrc]
  exact State.moveTo_of_not_inBounds hdst

/-! ## The five instructions -/

section
variable {s : State} {rm : Rm}

theorem exec_movRmReg_of_accessible (h : Accessible (resolve rm s.x)) (d : Dir) (w : Width) (reg : RegField) :
    exec (.movRmReg d w rm reg) s = .next (moved s (Dir.dst d (resolve rm s.x) (.reg reg)) w
      (getOperand s (Dir.src d (resolve rm s.x) (.reg reg)) w) (2 + rm.dispLen)) := by
  have hrm : (resolve rm s.x).InBounds w := (Operand.inBounds_resolve rm s.x w).2 h
  have hreg := Operand.inBounds_reg reg w
  have hdst : (Dir.dst d (resolve rm s.x) (.reg reg)).InBounds w := by
    cases d with
    | regIsSource => exact hrm
    | regIsDest => exact hreg
  have hsrc : (Dir.src d (resolve rm s.x) (.reg reg)).InBounds w := by
    cases d with
    | regIsSource => exact hreg
    | regIsDest => exact hrm
  exact congrArg s.finish (State.move_of_inBounds hdst hsrc)

/-- The register can always be accessed, so the trap is the operand's, as destination or as source. -/
theorem exec_movRmReg_of_not_accessible (h : ¬ Accessible (resolve rm s.x)) (d : Dir) (w : Width) (reg : RegField) :
    exec (.movRmReg d w rm reg) s = .next (raisedOutOfBounds s) := by
  have hrm : ¬ (resolve rm s.x).InBounds w := mt (Operand.inBounds_resolve rm s.x w).1 h
  cases d with
  | regIsSource => exact congrArg s.finish (State.move_of_dst_not_inBounds (Operand.inBounds_reg reg w) hrm)
  | regIsDest => exact congrArg s.finish (State.move_of_src_not_inBounds hrm)

theorem exec_movRmImm_of_accessible (h : Accessible (resolve rm s.x)) (ign : BitVec 3) (imm : Imm) :
    exec (.movRmImm ign rm imm) s =
      .next (moved s (resolve rm s.x) imm.width (Imm.value imm) (2 + rm.dispLen + imm.len)) :=
  congrArg s.finish (State.moveTo_of_inBounds ((Operand.inBounds_resolve rm s.x _).2 h))

theorem exec_movRmImm_of_not_accessible (h : ¬ Accessible (resolve rm s.x)) (ign : BitVec 3) (imm : Imm) :
    exec (.movRmImm ign rm imm) s = .next (raisedOutOfBounds s) :=
  congrArg s.finish (State.moveTo_of_not_inBounds (mt (Operand.inBounds_resolve rm s.x _).1 h))

end

theorem exec_movRegImm (s : State) (reg : RegField) (imm : Imm) :
    exec (.movRegImm reg imm) s = .next (moved s (.reg reg) imm.width (Imm.value imm) (1 + imm.len)) :=
  congrArg s.finish (State.moveTo_of_inBounds (Operand.inBounds_reg reg _))

theorem exec_movAccMem (s : State) (w : Width) (addr : Word) :
    exec (.movAccMem w addr) s = .next (moved s (.reg 0) w (s.mem.readAt addr.toNat w) 3) :=
  congrArg s.finish (State.move_of_inBounds (Operand.inBounds_reg 0 w) (Operand.inBounds_mem.2 (inBounds_direct addr w)))

theorem exec_movMemAcc (s : State) (w : Width) (addr : Word) :
    exec (.movMemAcc w addr) s = .next (moved s (.mem addr.toNat) w (s.x.operand 0 w) 3) :=
  congrArg s.finish (State.move_of_inBounds (Operand.inBounds_mem.2 (inBounds_direct addr w)) (Operand.inBounds_reg 0 w))

/-! ## The instruction a step runs -/

section
variable {s : State} (hs : Ready s)
include hs

/-- A step at the bytes of R120 runs `movRmReg` with the operand of `mod` and `rm`. -/
theorem step_movRmReg {d w : Bool} {mod : BitVec 2} {reg rm : BitVec 3}
    (h0 : code s 0 = 0b100010#6 ++ BitVec.ofBool d ++ BitVec.ofBool w) (h1 : code s 1 = mod ++ reg ++ rm) :
    ∃ r, step s = exec (.movRmReg (dirOfBit d) (width w) r reg.toFin) s ∧
      resolve r s.x = operandAt s mod rm ∧ r.dispLen = dispAt mod rm := by
  obtain ⟨r, bs, hdec, hres, hlen⟩ := decodeRm_code s mod rm
  refine ⟨r, ?_, hres, hlen⟩
  apply step_of_decode hs
  rw [h0, h1, decode_of_dispatch (dispatch_movRmReg d w)]
  exact decodeRmReg_fields hdec .movRmReg _ d w reg

/-- A step at the bytes of R121 runs `movRmImm` with the operand of `mod` and `rm` and the immediate after it. -/
theorem step_movRmImm {w : Bool} {mod : BitVec 2} {ign rm : BitVec 3}
    (h0 : code s 0 = 0b1100011#7 ++ BitVec.ofBool w) (h1 : code s 1 = mod ++ ign ++ rm) :
    ∃ r, step s = exec (.movRmImm ign r (immTerm s w (2 + dispAt mod rm))) s ∧
      resolve r s.x = operandAt s mod rm ∧ r.dispLen = dispAt mod rm := by
  obtain ⟨r, bs, hdec, hres, hlen⟩ := decodeRm_code s mod rm
  obtain ⟨rest, himm⟩ := decodeImm_code s w (2 + dispAt mod rm) bs
  refine ⟨r, ?_, hres, hlen⟩
  apply step_of_decode hs
  rw [h0, h1, decode_of_dispatch (dispatch_movRmImm w)]
  exact decodeIrm_fields hdec himm _ ign

/-- A step at the bytes of R122 runs `movRegImm` with the immediate after byte 0. -/
theorem step_movRegImm {w : Bool} {reg : BitVec 3} (h0 : code s 0 = 0b1011#4 ++ BitVec.ofBool w ++ reg) :
    step s = exec (.movRegImm reg.toFin (immTerm s w 1)) s := by
  obtain ⟨rest, himm⟩ := decodeImm_code s w 1 [code s 3, code s 4, code s 5]
  apply step_of_decode hs
  rw [h0, decode_of_dispatch (dispatch_movRegImm w reg), decodeForm, irWBit_opcode4, lowField_opcode4, himm]
  rfl

/-- A step at the bytes of R123 runs `movAccMem` with the address in bytes 1 and 2. -/
theorem step_movAccMem {w : Bool} (h0 : code s 0 = 0b1010000#7 ++ BitVec.ofBool w) :
    step s = exec (.movAccMem (width w) (code16 s 1)) s := by
  apply step_of_decode hs
  rw [h0, decode_of_dispatch (dispatch_movAccMem w), decodeForm, decodeWord_cons, wBit_opcode7, code16_eq_le16]
  rfl

/-- A step at the bytes of R124 runs `movMemAcc` with the address in bytes 1 and 2. -/
theorem step_movMemAcc {w : Bool} (h0 : code s 0 = 0b1010001#7 ++ BitVec.ofBool w) :
    step s = exec (.movMemAcc (width w) (code16 s 1)) s := by
  apply step_of_decode hs
  rw [h0, decode_of_dispatch (dispatch_movMemAcc w), decodeForm, decodeWord_cons, wBit_opcode7, code16_eq_le16]
  rfl

end

/-! ## The obligations -/

/-- Settles O21: the instruction the bytes hold, then its two outcomes, for each value of `d`. -/
theorem movRmRegFromBytes : Obligations.MovRmRegFromBytes := by
  intro s d w mod reg rm hs h0 h1
  obtain ⟨r, hstep, hres, hlen⟩ := step_movRmReg hs h0 h1
  rw [hstep]
  refine ⟨fun h => ?_, fun h => ?_⟩
  · rw [← hres] at h
    rw [exec_movRmReg_of_accessible h, hres, hlen]
    cases d <;> rfl
  · rw [← hres] at h
    exact exec_movRmReg_of_not_accessible h _ _ _

/-- Settles O22: the instruction the bytes hold, then its two outcomes. -/
theorem movRmImmFromBytes : Obligations.MovRmImmFromBytes := by
  intro s w mod ign rm hs h0 h1
  obtain ⟨r, hstep, hres, hlen⟩ := step_movRmImm hs h0 h1
  rw [hstep]
  refine ⟨fun h => ?_, fun h => ?_⟩
  · rw [← hres] at h
    rw [exec_movRmImm_of_accessible h, hres, hlen, immTerm_len]
    exact congrArg _ (immTerm_value s w _ fun v b => moved s (operandAt s mod rm) v b _)
  · rw [← hres] at h
    exact exec_movRmImm_of_not_accessible h _ _

/-- Settles O23: the instruction the bytes hold, whose destination is a register. -/
theorem movRegImmFromBytes : Obligations.MovRegImmFromBytes := by
  intro s w reg hs h0
  rw [step_movRegImm hs h0, exec_movRegImm, immTerm_len]
  exact congrArg _ (immTerm_value s w 1 fun v b => moved s (.reg reg.toFin) v b _)

/-- Settles O24: the instruction the bytes hold, whose address is direct and so in bounds. -/
theorem movAccMemFromBytes : Obligations.MovAccMemFromBytes := by
  intro s w hs h0
  rw [step_movAccMem hs h0, exec_movAccMem]
  rfl

/-- Settles O25: the instruction the bytes hold, whose address is direct and so in bounds. -/
theorem movMemAccFromBytes : Obligations.MovMemAccFromBytes := by
  intro s w hs h0
  rw [step_movMemAcc hs h0, exec_movMemAcc]
  rfl

end Sys2Proof.Machine
end

