-- ==== Sys2Proof/Proofs/Arith.lean ====
section
/-! PROOF. The obligations about ADD, SUB and CMP from their bytes (R133 to R141): the body they share, what each format
does, and the instruction each encoding holds. -/

namespace Sys2Proof

open Sys2Proof.Claims

/-! ## The opcodes and the selector (R133 to R141, R55, R66) -/

theorem dispatch_arithRmReg (k : ArithKind) : ∀ d w : Bool,
    dispatch (opcodeRm k ++ BitVec.ofBool d ++ BitVec.ofBool w) = some (.rmArith k) := by
  cases k <;> decide

theorem dispatch_arithRmImm : ∀ sx w : Bool,
    dispatch (0b100000#6 ++ BitVec.ofBool sx ++ BitVec.ofBool w) = some .grp := by decide

theorem dispatch_arithAccImm (k : ArithKind) : ∀ w : Bool,
    dispatch (opcodeAcc k ++ BitVec.ofBool w) = some (.ia k) := by
  cases k <;> decide

theorem ArithKind.ofSelector_selector (k : ArithKind) : ArithKind.ofSelector (Claims.selector k) = some k := by
  cases k <;> rfl

theorem ArithKind.ofSelector_eq_none {sel : BitVec 3} (h : ∀ k, sel ≠ Claims.selector k) :
    ArithKind.ofSelector sel = none := by
  have hadd : sel ≠ 0b000#3 := h .add
  have hsub : sel ≠ 0b101#3 := h .sub
  have hcmp : sel ≠ 0b111#3 := h .cmp
  rw [ArithKind.ofSelector, if_neg hadd, if_neg hsub, if_neg hcmp]

/-! ## Format GRP from its fields (R55) -/

/-- Format GRP with the selector of an operation, once its operand and its immediate are read. -/
theorem decodeGrp_fields {mod : BitVec 2} {rm : BitVec 3} {bs bs' rest : List Byte} {r : Rm} {imm : GrpImm} {sx w : Bool}
    (hrm : decodeRm mod rm bs = .ok (r, bs')) (himm : decodeGrpImm sx w bs' = .ok (imm, rest)) (op : BitVec 6)
    (k : ArithKind) :
    decodeGrp (op ++ BitVec.ofBool sx ++ BitVec.ofBool w) ((mod ++ Claims.selector k ++ rm) :: bs) =
      .ok (k.rmImm r imm, rest) := by
  obtain ⟨hmod, hsel, hlow⟩ := addressing_fields mod (Claims.selector k) rm
  unfold addressingByte at hmod hsel hlow
  simp only [decodeGrp, decodeByte_cons, Decoded.andThen_ok, hmod, hsel, hlow, ArithKind.ofSelector_selector, hrm,
    dBit_opcodeRm, wBit_opcodeRm, himm, Decoded.wrap_ok]

/-- A selector that chooses no operation is refused before anything after it is read (R66). -/
theorem decodeGrp_unrecognizedSelector {sel : BitVec 3} (h : ∀ k, sel ≠ Claims.selector k) (b0 : Byte) (mod : BitVec 2)
    (rm : BitVec 3) (bs : List Byte) :
    decodeGrp b0 ((mod ++ sel ++ rm) :: bs) = .error (.unrecognizedSelector b0 (mod ++ sel ++ rm)) := by
  obtain ⟨-, hsel, -⟩ := addressing_fields mod sel rm
  unfold addressingByte at hsel
  simp only [decodeGrp, decodeByte_cons, Decoded.andThen_ok, hsel, ArithKind.ofSelector_eq_none h]

end Sys2Proof

namespace Sys2Proof.Machine

open Sys2Proof.Claims

/-! ## The arithmetic law and the flags (R130, R131) -/

/-- Wrapping arithmetic is the arithmetic of the integers reduced `mod 2^W` (R130). -/
theorem ArithKind.compute_eq_arithResult {n : Nat} (k : ArithKind) (a b : BitVec n) :
    ArithKind.compute k a b = arithResult k a b := by
  have hsub : a - b = BitVec.ofInt n ((a.toNat : Int) - b.toNat) := by
    simp [Int.sub_eq_add_neg, BitVec.ofInt_add, BitVec.ofInt_neg, BitVec.sub_eq_add_neg]
  cases k with
  | add => exact BitVec.add_def a b
  | sub => exact hsub
  | cmp => exact hsub

theorem State.setZS_eq {n : Nat} (s : State) (r : BitVec n) :
    s.setZS r = { s with zf := decide (r.toNat = 0), sf := r.getLsbD (n - 1) } := by
  have hzf : (r == 0#n) = decide (r.toNat = 0) := by
    rw [Bool.eq_iff_iff]
    simp [BitVec.toNat_eq]
  rw [State.setZS, hzf, BitVec.msb_eq_getLsbD_last]

/-! ## The body (R132) -/

section
variable {s : State} {dst : Operand} {w : Width}

theorem State.storeResult_of_inBounds {r : BitVec w.bits} (h : dst.InBounds w) (k : ArithKind) :
    s.storeResult k dst w r = .ok (if k = .cmp then s else putOperand s dst w r) := by
  cases k with
  | add => exact State.opWr_of_inBounds h
  | sub => exact State.opWr_of_inBounds h
  | cmp => rfl

theorem State.arith_of_inBounds {b : BitVec w.bits} (h : dst.InBounds w) (k : ArithKind) :
    s.arith k dst w b = .ok (arithAfter s k dst w b) := by
  simp only [State.arith, State.opRd_of_inBounds h, State.storeResult_of_inBounds h, State.setZS_eq,
    ArithKind.compute_eq_arithResult]
  rfl

/-- The destination is read first, by CMP as well, so the trap is that of the read. -/
theorem State.arith_of_not_inBounds {b : BitVec w.bits} (h : ¬ dst.InBounds w) (k : ArithKind) :
    s.arith k dst w b = .error .memoryOutOfBounds := by
  rw [State.arith, State.opRd_of_not_inBounds h]

end

@[simp] theorem arithAfter_ip (s : State) (k : ArithKind) (dst : Operand) (w : Width) (b : BitVec w.bits) :
    (arithAfter s k dst w b).ip = s.ip := by
  cases k with
  | add => exact putOperand_ip s dst w _
  | sub => exact putOperand_ip s dst w _
  | cmp => rfl

/-- The state after `Arith` on an accessible operand and going on past `n` bytes. -/
def calculated (s : State) (k : ArithKind) (dst : Operand) (w : Width) (b : BitVec w.bits) (n : Nat) : State :=
  { arithAfter s k dst w b with ip := ipPlus s n }

section
variable {s : State} {dst : Operand} {w : Width} {b : BitVec w.bits} {len : Nat}

theorem State.arithValue_of_inBounds (h : dst.InBounds w) (k : ArithKind) :
    s.arithValue k dst w b len = .ok (calculated s k dst w b len) := by
  rw [State.arithValue, State.arith_of_inBounds h, calculated, ipPlus_natCast, ← arithAfter_ip s k dst w b]
  rfl

theorem State.arithValue_of_not_inBounds (h : ¬ dst.InBounds w) (k : ArithKind) :
    s.arithValue k dst w b len = .error .memoryOutOfBounds := by
  rw [State.arithValue, State.arith_of_not_inBounds h]

end

/-! ## The three formats -/

theorem Dir.dst_inBounds {rmop regop : Operand} {w : Width} (d : Dir) (hrm : rmop.InBounds w)
    (hreg : regop.InBounds w) : (Dir.dst d rmop regop).InBounds w := by
  cases d with
  | regIsSource => exact hrm
  | regIsDest => exact hreg

theorem Dir.src_inBounds {rmop regop : Operand} {w : Width} (d : Dir) (hrm : rmop.InBounds w)
    (hreg : regop.InBounds w) : (Dir.src d rmop regop).InBounds w := by
  cases d with
  | regIsSource => exact hreg
  | regIsDest => exact hrm

theorem exec_rmReg (k : ArithKind) (d : Dir) (w : Width) (rm : Rm) (reg : RegField) (s : State) :
    exec (k.rmReg d w rm reg) s = s.finish (s.arithRmReg k d w rm reg) := by cases k <;> rfl

theorem exec_rmImm (k : ArithKind) (rm : Rm) (imm : GrpImm) (s : State) :
    exec (k.rmImm rm imm) s = s.finish (s.arithRmImm k rm imm) := by cases k <;> rfl

theorem exec_accImm (k : ArithKind) (imm : Imm) (s : State) :
    exec (k.accImm imm) s = s.finish (s.arithAccImm k imm) := by cases k <;> rfl

section
variable {s : State} {rm : Rm}

theorem State.arithRmReg_of_inBounds {w : Width} (h : (resolve rm s.x).InBounds w) (k : ArithKind) (d : Dir)
    (reg : RegField) :
    s.arithRmReg k d w rm reg = .ok (calculated s k (Dir.dst d (resolve rm s.x) (.reg reg)) w
      (getOperand s (Dir.src d (resolve rm s.x) (.reg reg)) w) (2 + rm.dispLen)) := by
  have hreg := Operand.inBounds_reg reg w
  rw [State.arithRmReg, State.opRd_of_inBounds (Dir.src_inBounds d h hreg)]
  exact State.arithValue_of_inBounds (Dir.dst_inBounds d h hreg) k

/-- The register can always be accessed, so the trap is the operand's, as destination or as source. -/
theorem State.arithRmReg_of_not_inBounds {w : Width} (h : ¬ (resolve rm s.x).InBounds w) (k : ArithKind) (d : Dir)
    (reg : RegField) : s.arithRmReg k d w rm reg = .error .memoryOutOfBounds := by
  cases d with
  | regIsSource => exact State.arithValue_of_not_inBounds h k
  | regIsDest =>
    have hsrc : ¬ (Dir.src .regIsDest (resolve rm s.x) (.reg reg)).InBounds w := h
    rw [State.arithRmReg, State.opRd_of_not_inBounds hsrc]

theorem exec_rmReg_of_accessible (h : Accessible (resolve rm s.x)) (k : ArithKind) (d : Dir) (w : Width)
    (reg : RegField) :
    exec (k.rmReg d w rm reg) s = .next (calculated s k (Dir.dst d (resolve rm s.x) (.reg reg)) w
      (getOperand s (Dir.src d (resolve rm s.x) (.reg reg)) w) (2 + rm.dispLen)) :=
  (exec_rmReg k d w rm reg s).trans
    (congrArg s.finish (State.arithRmReg_of_inBounds ((Operand.inBounds_resolve rm s.x w).2 h) k d reg))

theorem exec_rmReg_of_not_accessible (h : ¬ Accessible (resolve rm s.x)) (k : ArithKind) (d : Dir) (w : Width)
    (reg : RegField) : exec (k.rmReg d w rm reg) s = .next (raisedOutOfBounds s) :=
  (exec_rmReg k d w rm reg s).trans
    (congrArg s.finish (State.arithRmReg_of_not_inBounds (mt (Operand.inBounds_resolve rm s.x w).1 h) k d reg))

theorem exec_rmImm_of_accessible (h : Accessible (resolve rm s.x)) (k : ArithKind) (imm : GrpImm) :
    exec (k.rmImm rm imm) s =
      .next (calculated s k (resolve rm s.x) imm.width (GrpImm.value imm) (2 + rm.dispLen + imm.len)) :=
  (exec_rmImm k rm imm s).trans
    (congrArg s.finish (State.arithValue_of_inBounds ((Operand.inBounds_resolve rm s.x _).2 h) k))

theorem exec_rmImm_of_not_accessible (h : ¬ Accessible (resolve rm s.x)) (k : ArithKind) (imm : GrpImm) :
    exec (k.rmImm rm imm) s = .next (raisedOutOfBounds s) :=
  (exec_rmImm k rm imm s).trans
    (congrArg s.finish (State.arithValue_of_not_inBounds (mt (Operand.inBounds_resolve rm s.x _).1 h) k))

end

/-- The accumulator is a register, so format IA never traps. -/
theorem exec_accImm_next (k : ArithKind) (imm : Imm) (s : State) :
    exec (k.accImm imm) s = .next (calculated s k (.reg 0) imm.width (Imm.value imm) (1 + imm.len)) :=
  (exec_accImm k imm s).trans (congrArg s.finish (State.arithValue_of_inBounds (Operand.inBounds_reg 0 _) k))

/-! ## The immediate of format GRP at `ip` (R62) -/

/-- The immediate term of format GRP that byte `k` and up hold (R62). -/
def grpImmTerm (s : State) (sx w : Bool) (k : Nat) : GrpImm :=
  match sx, w with
  | false, false => .imm8 (code s k)
  | false, true => .imm16 (code16 s k)
  | true, false => .imm8s (code s k)
  | true, true => .sext8 (code s k)

theorem decodeGrpImm_code (s : State) (sx w : Bool) (k : Nat) (bs : List Byte) :
    ∃ rest, decodeGrpImm sx w (code s k :: code s (k + 1) :: bs) = .ok (grpImmTerm s sx w k, rest) := by
  match sx, w with
  | false, false => exact ⟨_, rfl⟩
  | false, true => exact ⟨bs, by rw [grpImmTerm, code16_eq_le16]; rfl⟩
  | true, false => exact ⟨_, rfl⟩
  | true, true => exact ⟨_, rfl⟩

theorem grpImmTerm_len (s : State) (sx w : Bool) (k : Nat) : (grpImmTerm s sx w k).len = grpImmLen sx w := by
  cases sx <;> cases w <;> rfl

/-- Whatever is made of the width and the value of a format GRP immediate term is made of `grpImmAt`. -/
theorem grpImmTerm_value (s : State) (sx w : Bool) (k : Nat) {α : Type} (f : (v : Width) → BitVec v.bits → α) :
    f (grpImmTerm s sx w k).width (GrpImm.value (grpImmTerm s sx w k)) = f (width w) (grpImmAt s sx w k) := by
  cases sx <;> cases w <;> rfl

/-! ## The instruction a step runs -/

/-- A step that fetches bytes that are no instruction raises `UnrecognizedOpcode` (R90, R183). -/
theorem step_of_decode_error {s : State} {e : DecodeError} (hs : Ready s)
    (h : decode [code s 0, code s 1, code s 2, code s 3, code s 4, code s 5] = .error e) :
    step s = .next (s.raise .unrecognizedOpcode) := by
  obtain ⟨hrun, hip⟩ := hs
  have hend : s.atEnd = false := by simpa [State.atEnd] using hip
  have hbytes : s.fetchBytes = [code s 0, code s 1, code s 2, code s 3, code s 4, code s 5] := rfl
  have hfetch : s.fetch = .error .unrecognizedOpcode := by
    rw [State.fetch, hbytes, h]
  simp [step, hrun, hend, hfetch]

section
variable {s : State} (hs : Ready s)
include hs

/-- A step at the bytes of R133, R136 and R139 runs format RM with the operand of `mod` and `rm`. -/
theorem step_arithRmReg {k : ArithKind} {d w : Bool} {mod : BitVec 2} {reg rm : BitVec 3}
    (h0 : code s 0 = opcodeRm k ++ BitVec.ofBool d ++ BitVec.ofBool w) (h1 : code s 1 = mod ++ reg ++ rm) :
    ∃ r, step s = exec (k.rmReg (dirOfBit d) (width w) r reg.toFin) s ∧
      resolve r s.x = operandAt s mod rm ∧ r.dispLen = dispAt mod rm := by
  obtain ⟨r, bs, hdec, hres, hlen⟩ := decodeRm_code s mod rm
  refine ⟨r, ?_, hres, hlen⟩
  apply step_of_decode hs
  rw [h0, h1, decode_of_dispatch (dispatch_arithRmReg k d w)]
  exact decodeRmReg_fields hdec k.rmReg _ d w reg

/-- A step at the bytes of R134, R137 and R140 runs the operation of the selector with the operand of `mod` and `rm` and the
immediate after it. -/
theorem step_arithRmImm {k : ArithKind} {sx w : Bool} {mod : BitVec 2} {rm : BitVec 3}
    (h0 : code s 0 = 0b100000#6 ++ BitVec.ofBool sx ++ BitVec.ofBool w) (h1 : code s 1 = mod ++ selector k ++ rm) :
    ∃ r, step s = exec (k.rmImm r (grpImmTerm s sx w (2 + dispAt mod rm))) s ∧
      resolve r s.x = operandAt s mod rm ∧ r.dispLen = dispAt mod rm := by
  obtain ⟨r, bs, hdec, hres, hlen⟩ := decodeRm_code s mod rm
  obtain ⟨rest, himm⟩ := decodeGrpImm_code s sx w (2 + dispAt mod rm) bs
  refine ⟨r, ?_, hres, hlen⟩
  apply step_of_decode hs
  rw [h0, h1, decode_of_dispatch (dispatch_arithRmImm sx w)]
  exact decodeGrp_fields hdec himm _ k

/-- A selector that chooses no operation is no instruction, whatever follows it (R66). -/
theorem step_unrecognizedSelector {sx w : Bool} {mod : BitVec 2} {sel rm : BitVec 3}
    (h0 : code s 0 = 0b100000#6 ++ BitVec.ofBool sx ++ BitVec.ofBool w) (h1 : code s 1 = mod ++ sel ++ rm)
    (hsel : ∀ k, sel ≠ selector k) : step s = .next (s.raise .unrecognizedOpcode) := by
  apply step_of_decode_error hs
  rw [h0, h1, decode_of_dispatch (dispatch_arithRmImm sx w)]
  exact decodeGrp_unrecognizedSelector hsel _ mod rm _

/-- A step at the bytes of R135, R138 and R141 runs format IA with the immediate after byte 0. -/
theorem step_arithAccImm {k : ArithKind} {w : Bool} (h0 : code s 0 = opcodeAcc k ++ BitVec.ofBool w) :
    step s = exec (k.accImm (immTerm s w 1)) s := by
  obtain ⟨rest, himm⟩ := decodeImm_code s w 1 [code s 3, code s 4, code s 5]
  apply step_of_decode hs
  rw [h0, decode_of_dispatch (dispatch_arithAccImm k w), decodeForm, wBit_opcode7, himm]
  rfl

end

/-! ## The obligations -/

/-- Settles O27: the instruction the bytes hold, then its two outcomes, for each value of `d`. -/
theorem arithRmRegFromBytes : Obligations.ArithRmRegFromBytes := by
  intro k s d w mod reg rm hs h0 h1
  obtain ⟨r, hstep, hres, hlen⟩ := step_arithRmReg hs h0 h1
  rw [hstep]
  refine ⟨fun h => ?_, fun h => ?_⟩
  · rw [← hres] at h
    rw [exec_rmReg_of_accessible h, hres, hlen]
    cases d <;> rfl
  · rw [← hres] at h
    exact exec_rmReg_of_not_accessible h _ _ _ _

/-- Settles O28: with a selector of the three, the instruction the bytes hold and its two outcomes; with any other, the fault of
the fetch. -/
theorem arithRmImmFromBytes : Obligations.ArithRmImmFromBytes := by
  intro s sx w mod sel rm hs h0 h1
  refine ⟨?_, ?_, step_unrecognizedSelector hs h0 h1⟩
  · rintro k rfl h
    obtain ⟨r, hstep, hres, hlen⟩ := step_arithRmImm hs h0 h1
    rw [← hres] at h
    rw [hstep, exec_rmImm_of_accessible h, hres, hlen, grpImmTerm_len]
    exact congrArg _ (grpImmTerm_value s sx w _ fun v b => calculated s k (operandAt s mod rm) v b _)
  · rintro k rfl h
    obtain ⟨r, hstep, hres, -⟩ := step_arithRmImm hs h0 h1
    rw [← hres] at h
    rw [hstep, exec_rmImm_of_not_accessible h]

/-- Settles O29: the instruction the bytes hold, whose destination is the accumulator. -/
theorem arithAccImmFromBytes : Obligations.ArithAccImmFromBytes := by
  intro k s w hs h0
  rw [step_arithAccImm hs h0, exec_accImm_next, immTerm_len]
  exact congrArg _ (immTerm_value s w 1 fun v b => calculated s k (.reg 0) v b _)

end Sys2Proof.Machine
end

