-- ==== Sys2Proof/Proofs/Branch.lean ====
section
/-! PROOF. The obligations about the jumps and the loops from their bytes (R152 to R173): what a branch and a loop do in the
integers, what each instruction does, and the instruction byte 0 selects. -/

namespace Sys2Proof

/-- The twelve jumps whose condition needs a flag this core lacks (R151). -/
def twelveJumps : List Jump := [.jo, .jno, .jb, .jnb, .jbe, .ja, .jp, .jnp, .jl, .jnl, .jle, .jg]

theorem dispatch_twelveJumps :
    ∀ b ∈ [0x70#8, 0x71#8, 0x72#8, 0x73#8, 0x76#8, 0x77#8, 0x7A#8, 0x7B#8, 0x7C#8, 0x7D#8, 0x7E#8, 0x7F#8],
      ∃ j ∈ twelveJumps, dispatch b = some (.j j) := by decide

end Sys2Proof

namespace Sys2Proof.Machine

open Sys2Proof.Claims

/-! ## A branch and a loop (R150, R151) -/

/-- The state after a jump with displacement `disp`; `jumped` is this state for the displacement in byte 1 (R150). -/
def branched (s : State) (taken : Prop) [Decidable taken] (disp : Byte) : State :=
  { s with ip := if taken then ipPlus s (2 + disp.toInt) else ipPlus s 2 }

theorem ipPlus_two_add_toInt (s : State) (disp : Byte) :
    ipPlus s (2 + disp.toInt) = s.ip + 2#16 + disp.signExtend 16 := by
  have htwo : BitVec.ofInt 16 (s.ip.toNat + 2) = s.ip + 2#16 := ipPlus_natCast s 2
  rw [ipPlus, ← Int.add_assoc, BitVec.ofInt_add, htwo, BitVec.signExtend]

theorem State.branch_false (s : State) (disp : Byte) : s.branch false disp = { s with ip := ipPlus s 2 } :=
  congrArg (fun a => { s with ip := a }) (ipPlus_natCast s 2).symm

theorem State.branch_true (s : State) (disp : Byte) :
    s.branch true disp = { s with ip := ipPlus s (2 + disp.toInt) } :=
  congrArg (fun a => { s with ip := a }) (ipPlus_two_add_toInt s disp).symm

theorem State.branch_eq_branched (s : State) {b : Bool} {taken : Prop} [Decidable taken] (h : b = true ↔ taken)
    (disp : Byte) : s.branch b disp = branched s taken disp := by
  by_cases ht : taken
  · rw [h.2 ht, State.branch_true, branched, if_pos ht]
  · rw [Bool.eq_false_iff.2 (mt h.1 ht), State.branch_false, branched, if_neg ht]

theorem State.isExtended_iff (s : State) : s.isExtended = true ↔ s.branchExec = .extended := beq_iff_eq

theorem cxLess_eq_sub (s : State) : cxLess s = s.cx - 1#16 :=
  (ArithKind.compute_eq_arithResult .sub s.cx 1#16).symm

theorem State.decCx_eq_cxDecremented (s : State) : s.decCx = cxDecremented s := by
  rw [State.decCx, cxDecremented, cxLess_eq_sub]

theorem cxDecremented_cx (s : State) : (cxDecremented s).cx = cxLess s := Regs.read_write_self s.x 1 _

theorem State.loopWhen_of_jnzOnly {s : State} (h : s.branchExec = .jnzOnly) (flagOk : Bool) (disp : Byte) :
    s.loopWhen flagOk disp = { s with ip := ipPlus s 2 } := by
  have hbranch : s.loopWhen flagOk disp = s.branch false disp := by rw [State.loopWhen, h]
  rw [hbranch, State.branch_false]

theorem State.loopWhen_of_extended {s : State} (h : s.branchExec = .extended) {flagOk : Bool} {taken : Prop}
    [Decidable taken] (ht : (cxLess s).toNat ≠ 0 ∧ flagOk = true ↔ taken) (disp : Byte) :
    s.loopWhen flagOk disp = branched (cxDecremented s) taken disp := by
  have hcond : (cxLess s != 0#16 && flagOk) = true ↔ taken := by
    rw [← ht, Bool.and_eq_true, bne_iff_ne, ne_eq, ne_eq, BitVec.toNat_eq]
    rfl
  rw [State.loopWhen, h, State.decCx_eq_cxDecremented, cxDecremented_cx]
  exact State.branch_eq_branched _ hcond disp

/-! ## What each instruction does -/

section
variable (disp : Byte) (s : State)

theorem exec_twelveJumps {j : Jump} (h : j ∈ twelveJumps) : exec (j.instr disp) s = .next { s with ip := ipPlus s 2 } := by
  have hbranch : exec (j.instr disp) s = .next (s.branch false disp) := by
    unfold twelveJumps at h
    fin_cases h <;> rfl
  rw [hbranch, State.branch_false]

theorem exec_jnz : exec (.jnz disp) s = .next (branched s (s.zf = false) disp) :=
  congrArg _ (s.branch_eq_branched (by rw [Bool.not_eq_true']) disp)

theorem exec_je : exec (.je disp) s = .next (branched s (s.branchExec = .extended ∧ s.zf = true) disp) :=
  congrArg _ (s.branch_eq_branched (by rw [Bool.and_eq_true, s.isExtended_iff]) disp)

theorem exec_js : exec (.js disp) s = .next (branched s (s.branchExec = .extended ∧ s.sf = true) disp) :=
  congrArg _ (s.branch_eq_branched (by rw [Bool.and_eq_true, s.isExtended_iff]) disp)

theorem exec_jns : exec (.jns disp) s = .next (branched s (s.branchExec = .extended ∧ s.sf = false) disp) :=
  congrArg _ (s.branch_eq_branched (by rw [Bool.and_eq_true, s.isExtended_iff, Bool.not_eq_true']) disp)

theorem exec_jcxz :
    exec (.jcxz disp) s = .next (branched s (s.branchExec = .extended ∧ (s.x.read 1).toNat = 0) disp) := by
  have hcx : (s.cx == 0#16) = true ↔ (s.x.read 1).toNat = 0 := by
    rw [beq_iff_eq, BitVec.toNat_eq]
    rfl
  exact congrArg _ (s.branch_eq_branched (by rw [Bool.and_eq_true, s.isExtended_iff, hcx]) disp)

variable {s}

theorem exec_loopnz_of_extended (h : s.branchExec = .extended) : exec (.loopnz disp) s =
    .next (branched (cxDecremented s) ((cxLess s).toNat ≠ 0 ∧ s.zf = false) disp) :=
  congrArg _ (State.loopWhen_of_extended h (by rw [Bool.not_eq_true']) disp)

theorem exec_loopz_of_extended (h : s.branchExec = .extended) : exec (.loopz disp) s =
    .next (branched (cxDecremented s) ((cxLess s).toNat ≠ 0 ∧ s.zf = true) disp) :=
  congrArg _ (State.loopWhen_of_extended h Iff.rfl disp)

theorem exec_loop_of_extended (h : s.branchExec = .extended) : exec (.loop disp) s =
    .next (branched (cxDecremented s) ((cxLess s).toNat ≠ 0) disp) :=
  congrArg _ (State.loopWhen_of_extended h (and_iff_left rfl) disp)

theorem exec_loops_of_jnzOnly (h : s.branchExec = .jnzOnly) {j : Jump} (hj : isLoop j = true) :
    exec (j.instr disp) s = .next { s with ip := ipPlus s 2 } := by
  have hloop : ∃ flagOk, exec (j.instr disp) s = .next (s.loopWhen flagOk disp) := by
    cases j with
    | loopnz => exact ⟨!s.zf, rfl⟩
    | loopz => exact ⟨s.zf, rfl⟩
    | loop => exact ⟨true, rfl⟩
    | _ => cases hj
  obtain ⟨flagOk, hexec⟩ := hloop
  rw [hexec, State.loopWhen_of_jnzOnly h]

end

/-! ## The instruction a step runs -/

/-- A step whose byte 0 selects a jump runs it with the displacement in byte 1 (R59). -/
theorem step_jump {s : State} (hs : Ready s) {b : Byte} {j : Jump} (h0 : code s 0 = b)
    (hj : dispatch b = some (.j j)) : step s = exec (j.instr (code s 1)) s := by
  apply step_of_decode hs
  rw [h0, decode_of_dispatch hj, decodeForm, decodeByte_cons, Decoded.wrap_ok]

/-! ## The obligations -/

/-- Settles O31: byte 0 selects one of the twelve jumps, and each of them only goes past its two bytes. -/
theorem twelveJumpsNeverTaken : Obligations.TwelveJumpsNeverTaken := by
  intro s b hs h0 hb
  obtain ⟨j, hmem, hj⟩ := dispatch_twelveJumps b hb
  rw [step_jump hs h0 hj, exec_twelveJumps _ s hmem]

/-- Settles O32: the instruction the bytes hold, whose condition is on `ZF` alone. -/
theorem jnzFromBytes : Obligations.JnzFromBytes := by
  intro s hs h0
  exact (step_jump (j := .jnz) hs h0 (by decide)).trans (exec_jnz _ s)

/-- Settles O33: the instruction the bytes hold, for each of the three. -/
theorem flagJumpsFromBytes : Obligations.FlagJumpsFromBytes := by
  intro s hs
  refine ⟨fun h0 => ?_, fun h0 => ?_, fun h0 => ?_⟩
  · exact (step_jump (j := .je) hs h0 (by decide)).trans (exec_je _ s)
  · exact (step_jump (j := .js) hs h0 (by decide)).trans (exec_js _ s)
  · exact (step_jump (j := .jns) hs h0 (by decide)).trans (exec_jns _ s)

/-- Settles O34: the instruction the bytes hold, which tests `cx` and does not write it. -/
theorem jcxzFromBytes : Obligations.JcxzFromBytes := by
  intro s hs h0
  exact (step_jump (j := .jcxz) hs h0 (by decide)).trans (exec_jcxz _ s)

/-- Settles O35: the instruction the bytes hold, under each setting. -/
theorem loopsFromBytes : Obligations.LoopsFromBytes := by
  intro s hs
  refine ⟨fun hbe h0 => ?_, fun hbe => ⟨fun h0 => ?_, fun h0 => ?_, fun h0 => ?_⟩⟩
  · obtain h0 | h0 | h0 := h0
    · exact (step_jump (j := .loopnz) hs h0 (by decide)).trans (exec_loops_of_jnzOnly _ hbe rfl)
    · exact (step_jump (j := .loopz) hs h0 (by decide)).trans (exec_loops_of_jnzOnly _ hbe rfl)
    · exact (step_jump (j := .loop) hs h0 (by decide)).trans (exec_loops_of_jnzOnly _ hbe rfl)
  · exact (step_jump (j := .loopnz) hs h0 (by decide)).trans (exec_loopnz_of_extended _ hbe)
  · exact (step_jump (j := .loopz) hs h0 (by decide)).trans (exec_loopz_of_extended _ hbe)
  · exact (step_jump (j := .loop) hs h0 (by decide)).trans (exec_loop_of_extended _ hbe)

end Sys2Proof.Machine
end

