-- ==== Sys2Proof/Proofs/Exceptions.lean ====
section
/-! PROOF. The obligations about the two faults (spec/60_exceptions.md R183, R184): which bytes decode to no instruction, which
instructions trap, and that a step of a ready core ends in exactly one of those two ways or still running. -/

namespace Sys2Proof

open Sys2Proof.Claims

/-! ## The instructions by format (R52) -/

/-- A property of every instruction, shown format by format: the three operations and the twenty jumps count once each. -/
theorem Instr.byFormat {P : Instr → Prop}
    (movRmReg : ∀ d w rm reg, P (.movRmReg d w rm reg)) (movRmImm : ∀ ign rm imm, P (.movRmImm ign rm imm))
    (movRegImm : ∀ reg imm, P (.movRegImm reg imm)) (movAccMem : ∀ w addr, P (.movAccMem w addr))
    (movMemAcc : ∀ w addr, P (.movMemAcc w addr)) (rmReg : ∀ (k : ArithKind) d w rm reg, P (k.rmReg d w rm reg))
    (rmImm : ∀ (k : ArithKind) rm imm, P (k.rmImm rm imm)) (accImm : ∀ (k : ArithKind) imm, P (k.accImm imm))
    (jump : ∀ (j : Jump) disp, P (j.instr disp)) (i : Instr) : P i := by
  cases i with
  | movRmReg d w rm reg => exact movRmReg d w rm reg
  | movRmImm ign rm imm => exact movRmImm ign rm imm
  | movRegImm reg imm => exact movRegImm reg imm
  | movAccMem w addr => exact movAccMem w addr
  | movMemAcc w addr => exact movMemAcc w addr
  | addRmReg d w rm reg => exact rmReg .add d w rm reg
  | addRmImm rm imm => exact rmImm .add rm imm
  | addAccImm imm => exact accImm .add imm
  | subRmReg d w rm reg => exact rmReg .sub d w rm reg
  | subRmImm rm imm => exact rmImm .sub rm imm
  | subAccImm imm => exact accImm .sub imm
  | cmpRmReg d w rm reg => exact rmReg .cmp d w rm reg
  | cmpRmImm rm imm => exact rmImm .cmp rm imm
  | cmpAccImm imm => exact accImm .cmp imm
  | jo disp => exact jump .jo disp
  | jno disp => exact jump .jno disp
  | jb disp => exact jump .jb disp
  | jnb disp => exact jump .jnb disp
  | je disp => exact jump .je disp
  | jnz disp => exact jump .jnz disp
  | jbe disp => exact jump .jbe disp
  | ja disp => exact jump .ja disp
  | js disp => exact jump .js disp
  | jns disp => exact jump .jns disp
  | jp disp => exact jump .jp disp
  | jnp disp => exact jump .jnp disp
  | jl disp => exact jump .jl disp
  | jnl disp => exact jump .jnl disp
  | jle disp => exact jump .jle disp
  | jg disp => exact jump .jg disp
  | loopnz disp => exact jump .loopnz disp
  | loopz disp => exact jump .loopz disp
  | loop disp => exact jump .loop disp
  | jcxz disp => exact jump .jcxz disp

@[simp] theorem rmOf_rmReg (k : ArithKind) (d : Dir) (w : Width) (rm : Rm) (reg : RegField) :
    rmOf (k.rmReg d w rm reg) = some rm := by cases k <;> rfl

@[simp] theorem rmOf_rmImm (k : ArithKind) (rm : Rm) (imm : GrpImm) : rmOf (k.rmImm rm imm) = some rm := by
  cases k <;> rfl

@[simp] theorem rmOf_accImm (k : ArithKind) (imm : Imm) : rmOf (k.accImm imm) = none := by cases k <;> rfl

@[simp] theorem rmOf_jump (j : Jump) (disp : Byte) : rmOf (j.instr disp) = none := by cases j <;> rfl

/-! ## The bytes that are no instruction (R65, R66) -/

/-- The table has an entry for exactly the bytes of R65. -/
theorem dispatch_eq_none_iff : ∀ b : Byte, dispatch b = none ↔ ¬ Recognised b := by
  unfold Recognised
  decide

/-- Format GRP is the four bytes from 0x80 (R55). -/
theorem dispatch_eq_grp_iff : ∀ b : Byte, dispatch b = some .grp ↔ 0x80 ≤ b.toNat ∧ b.toNat ≤ 0x83 := by decide

theorem ArithKind.ofSelector_eq_none_iff (sel : BitVec 3) :
    ArithKind.ofSelector sel = none ↔ ∀ k, sel ≠ Claims.selector k := by
  refine ⟨fun h k hk => ?_, ArithKind.ofSelector_eq_none⟩
  rw [hk, ArithKind.ofSelector_selector] at h
  cases h

/-- The middle field of byte 1 is `sel` exactly when byte 1 is written with `sel` between some `mod` and some `rm`. -/
theorem midField_ne_iff (b1 : Byte) (sel : BitVec 3) :
    midField b1 ≠ sel ↔ ∀ (mod : BitVec 2) (rm : BitVec 3), b1 ≠ mod ++ sel ++ rm := by
  refine ⟨fun h mod rm hb => h ?_, fun h hsel => h (modField b1) (lowField b1) ?_⟩
  · obtain ⟨-, hmid, -⟩ := addressing_fields mod sel rm
    rw [hb]
    exact hmid
  · rw [← hsel]
    exact (addressing_of_fields b1).symm

/-- The second ground of R183, on the byte itself. -/
theorem ofSelector_midField_eq_none_iff (b1 : Byte) :
    ArithKind.ofSelector (midField b1) = none ↔
      ∀ (mod : BitVec 2) (rm : BitVec 3),
        b1 ≠ mod ++ 0b000#3 ++ rm ∧ b1 ≠ mod ++ 0b101#3 ++ rm ∧ b1 ≠ mod ++ 0b111#3 ++ rm := by
  rw [ArithKind.ofSelector_eq_none_iff]
  refine ⟨fun h mod rm => ?_, fun h k => (midField_ne_iff b1 _).2 fun mod rm => ?_⟩
  · have hne (k : ArithKind) := (midField_ne_iff b1 _).1 (h k) mod rm
    exact ⟨hne .add, hne .sub, hne .cmp⟩
  · obtain ⟨hadd, hsub, hcmp⟩ := h mod rm
    cases k with
    | add => exact hadd
    | sub => exact hsub
    | cmp => exact hcmp

end Sys2Proof

namespace Sys2Proof.Machine

open Sys2Proof.Claims

/-! ## What the bytes at `ip` decode to (R90, R183) -/

/-- The bytes of a fetch, as the statements read them. -/
theorem State.fetchBytes_eq_code (s : State) :
    s.fetchBytes = [code s 0, code s 1, code s 2, code s 3, code s 4, code s 5] := rfl

/-- Format RM is always an instruction. -/
theorem decodeRmReg_code (s : State) (mk : Dir → Width → Rm → RegField → Instr) :
    ∃ i rest, decodeRmReg mk (code s 0) [code s 1, code s 2, code s 3, code s 4, code s 5] = .ok (i, rest) := by
  obtain ⟨r, bs, hrm, -, -⟩ := decodeRm_code s (modField (code s 1)) (lowField (code s 1))
  simp [decodeRmReg, decodeAddressing, hrm]

/-- Format IRM is always an instruction, its ignored bits whatever they are (R67). -/
theorem decodeIrm_code (s : State) :
    ∃ i rest, decodeIrm (code s 0) [code s 1, code s 2, code s 3, code s 4, code s 5] = .ok (i, rest) := by
  obtain ⟨r, bs, hrm, -, -⟩ := decodeRm_code s (modField (code s 1)) (lowField (code s 1))
  obtain ⟨rest, himm⟩ :=
    decodeImm_code s (wBit (code s 0)) (2 + dispAt (modField (code s 1)) (lowField (code s 1))) bs
  simp [decodeIrm, decodeAddressing, hrm, himm]

/-- Format GRP is an instruction when its selector chooses an operation (R55, R66). -/
theorem decodeGrp_code (s : State) {k : ArithKind} (hsel : ArithKind.ofSelector (midField (code s 1)) = some k) :
    ∃ i rest, decodeGrp (code s 0) [code s 1, code s 2, code s 3, code s 4, code s 5] = .ok (i, rest) := by
  obtain ⟨r, bs, hrm, -, -⟩ := decodeRm_code s (modField (code s 1)) (lowField (code s 1))
  obtain ⟨rest, himm⟩ := decodeGrpImm_code s (dBit (code s 0)) (wBit (code s 0))
    (2 + dispAt (modField (code s 1)) (lowField (code s 1))) bs
  simp [decodeGrp, hsel, hrm, himm]

/-- Every form but GRP is always an instruction: six bytes are enough for its operand and its immediate. -/
theorem decodeForm_code (s : State) {f : Form} (hf : f ≠ .grp) :
    ∃ i rest, decodeForm f (code s 0) [code s 1, code s 2, code s 3, code s 4, code s 5] = .ok (i, rest) := by
  have himm (w : Bool) := decodeImm_code s w 1 [code s 3, code s 4, code s 5]
  cases f with
  | rmMov => exact decodeRmReg_code s _
  | rmArith k => exact decodeRmReg_code s _
  | irm => exact decodeIrm_code s
  | ir =>
    obtain ⟨rest, h⟩ := himm (irWBit (code s 0))
    simp [decodeForm, h]
  | maLoad => exact ⟨_, _, rfl⟩
  | maStore => exact ⟨_, _, rfl⟩
  | grp => exact absurd rfl hf
  | ia k =>
    obtain ⟨rest, h⟩ := himm (wBit (code s 0))
    simp [decodeForm, h]
  | j jump => exact ⟨_, _, rfl⟩

/-- The bytes at `ip` are no instruction on two grounds only: no table entry for byte 0, or no operation for a GRP selector. -/
theorem decode_fetchBytes_error_iff (s : State) :
    (∃ e, decode s.fetchBytes = .error e) ↔
      dispatch (code s 0) = none ∨
        (dispatch (code s 0) = some .grp ∧ ArithKind.ofSelector (midField (code s 1)) = none) := by
  rw [State.fetchBytes_eq_code]
  cases hd : dispatch (code s 0) with
  | none => simp [decode, hd]
  | some f =>
    rw [decode_of_dispatch hd]
    by_cases hf : f = .grp
    · subst hf
      cases hsel : ArithKind.ofSelector (midField (code s 1)) with
      | none => simp [decodeForm, decodeGrp, hsel]
      | some k =>
        obtain ⟨i, rest, hok⟩ := decodeGrp_code s hsel
        simp [decodeForm, hok]
    · obtain ⟨i, rest, hok⟩ := decodeForm_code s hf
      simp [hok, hf]

/-! ## The status after an instruction (R182, R184) -/

section
variable (s : State)

@[simp] theorem putOperand_status (op : Operand) (w : Width) (v : BitVec w.bits) :
    (putOperand s op w v).status = s.status := by cases op <;> rfl

@[simp] theorem moved_status (dst : Operand) (w : Width) (v : BitVec w.bits) (n : Nat) :
    (moved s dst w v n).status = s.status := putOperand_status s dst w v

@[simp] theorem calculated_status (k : ArithKind) (dst : Operand) (w : Width) (b : BitVec w.bits) (n : Nat) :
    (calculated s k dst w b n).status = s.status := by
  cases k with
  | add => exact putOperand_status s dst w _
  | sub => exact putOperand_status s dst w _
  | cmp => rfl

@[simp] theorem State.loopWhen_status (flagOk : Bool) (disp : Byte) : (s.loopWhen flagOk disp).status = s.status := by
  unfold State.loopWhen
  split
  · exact State.branch_status s _ disp
  · exact State.branch_status s.decCx _ disp

/-- A jump or a loop never raises a fault. -/
theorem exec_jump_keeps_status (j : Jump) (disp : Byte) :
    ∃ t, exec (j.instr disp) s = .next t ∧ t.status = s.status := by
  cases j with
  | loopnz => exact ⟨_, rfl, State.loopWhen_status s _ disp⟩
  | loopz => exact ⟨_, rfl, State.loopWhen_status s _ disp⟩
  | loop => exact ⟨_, rfl, State.loopWhen_status s _ disp⟩
  | _ => exact ⟨_, rfl, State.branch_status s _ disp⟩

end

/-- An instruction whose operand, if it has one, can be accessed raises no fault. -/
theorem exec_of_accessible {s : State} (i : Instr) (h : ∀ rm, rmOf i = some rm → Accessible (resolve rm s.x)) :
    ∃ t, exec i s = .next t ∧ t.status = s.status := by
  cases i using Instr.byFormat with
  | movRmReg d w rm reg => exact ⟨_, exec_movRmReg_of_accessible (h rm rfl) d w reg, moved_status ..⟩
  | movRmImm ign rm imm => exact ⟨_, exec_movRmImm_of_accessible (h rm rfl) ign imm, moved_status ..⟩
  | movRegImm reg imm => exact ⟨_, exec_movRegImm s reg imm, moved_status ..⟩
  | movAccMem w addr => exact ⟨_, exec_movAccMem s w addr, moved_status ..⟩
  | movMemAcc w addr => exact ⟨_, exec_movMemAcc s w addr, moved_status ..⟩
  | rmReg k d w rm reg => exact ⟨_, exec_rmReg_of_accessible (h rm (rmOf_rmReg ..)) k d w reg, calculated_status ..⟩
  | rmImm k rm imm => exact ⟨_, exec_rmImm_of_accessible (h rm (rmOf_rmImm ..)) k imm, calculated_status ..⟩
  | accImm k imm => exact ⟨_, exec_accImm_next k imm s, calculated_status ..⟩
  | jump j disp => exact exec_jump_keeps_status s j disp

/-- An instruction whose operand cannot be accessed traps, as its source or as its destination. -/
theorem exec_of_not_accessible {s : State} {i : Instr} {rm : Rm} (hrm : rmOf i = some rm)
    (h : ¬ Accessible (resolve rm s.x)) : exec i s = .next (raisedOutOfBounds s) := by
  cases i using Instr.byFormat with
  | movRmReg d w r reg =>
    cases hrm
    exact exec_movRmReg_of_not_accessible h d w reg
  | movRmImm ign r imm =>
    cases hrm
    exact exec_movRmImm_of_not_accessible h ign imm
  | rmReg k d w r reg =>
    obtain rfl : r = rm := by simpa using hrm
    exact exec_rmReg_of_not_accessible h k d w reg
  | rmImm k r imm =>
    obtain rfl : r = rm := by simpa using hrm
    exact exec_rmImm_of_not_accessible h k imm
  | accImm k imm => simp at hrm
  | jump j disp => simp at hrm
  | _ => cases hrm

/-- Only a signed displacement takes an address below 0 (R98, R184). -/
theorem accessible_resolve_iff (rm : Rm) (x : Regs) : Accessible (resolve rm x) ↔ ¬ NegativeAddress rm x := by
  have hmem (a : Int) : Accessible (.mem a) ↔ 0 ≤ a := by simp [Accessible]
  cases rm with
  | reg i => simp [resolve, Accessible, NegativeAddress]
  | direct addr => simp [resolve, hmem, NegativeAddress]
  | base b => simp [resolve, hmem, NegativeAddress, (Base.sum_bounds b x).1]
  | disp8 b d => simp [resolve, hmem, NegativeAddress, Base.sum_eq_baseAt_field]
  | disp16 b d => simp [resolve, hmem, NegativeAddress, Base.sum_eq_baseAt_field]

/-! ## The three ways a step of a ready core ends (R90, R183, R184) -/

/-- The bytes at `ip` are no instruction, and `UnrecognizedOpcode` is raised (R183). -/
def EndsUnrecognized (s t : State) : Prop :=
  (∃ e, decode s.fetchBytes = .error e) ∧ t = s.raise .unrecognizedOpcode

/-- The operand of the instruction at `ip` has a negative address, and `MemoryOutOfBounds` is raised (R184). -/
def EndsOutOfBounds (s t : State) : Prop :=
  (∃ i rest rm, decode s.fetchBytes = .ok (i, rest) ∧ rmOf i = some rm ∧ NegativeAddress rm s.x) ∧
    t = s.raise .memoryOutOfBounds

/-- The instruction at `ip` has no operand with a negative address, and the core goes on running. -/
def EndsRunning (s t : State) : Prop :=
  (∃ i rest, decode s.fetchBytes = .ok (i, rest) ∧ ∀ rm, rmOf i = some rm → ¬ NegativeAddress rm s.x) ∧
    t.status = .running

/-- What the bytes decode to, and the sign of the operand's address, decide between the three ways. -/
theorem step_ends {s t : State} (hs : Ready s) (ht : step s = .next t) :
    EndsUnrecognized s t ∨ EndsOutOfBounds s t ∨ EndsRunning s t := by
  cases hdec : decode s.fetchBytes with
  | error e =>
    have hstep := step_of_decode_error hs hdec
    rw [ht] at hstep
    cases hstep
    exact .inl ⟨⟨e, hdec⟩, rfl⟩
  | ok p =>
    obtain ⟨i, rest⟩ := p
    have hexec : exec i s = .next t := (step_of_decode hs hdec).symm.trans ht
    by_cases hneg : ∃ rm, rmOf i = some rm ∧ NegativeAddress rm s.x
    · obtain ⟨rm, hrm, hn⟩ := hneg
      rw [exec_of_not_accessible hrm fun hacc => (accessible_resolve_iff rm s.x).1 hacc hn] at hexec
      cases hexec
      exact .inr (.inl ⟨⟨i, rest, rm, hdec, hrm, hn⟩, rfl⟩)
    · have hno : ∀ rm, rmOf i = some rm → ¬ NegativeAddress rm s.x := fun rm hrm hn => hneg ⟨rm, hrm, hn⟩
      obtain ⟨t', ht', hstatus⟩ :=
        exec_of_accessible i fun rm hrm => (accessible_resolve_iff rm s.x).2 (hno rm hrm)
      rw [ht'] at hexec
      cases hexec
      exact .inr (.inr ⟨⟨i, rest, hdec, hno⟩, hstatus.trans hs.1⟩)

/-- A faulted core stays as it is (R21, R186). -/
theorem step_of_faulted {s : State} (h : s.status = .faulted) : step s = .next s := by
  rw [step, h]

/-! ## The obligations -/

/-- Settles O13: of the three ways a step ends only the first leaves this cause, and its bytes are those of the two grounds. -/
theorem unrecognizedOpcodeExactly : Obligations.UnrecognizedOpcodeExactly := by
  intro s t hs ht
  have hgrounds := decode_fetchBytes_error_iff s
  rw [dispatch_eq_none_iff, dispatch_eq_grp_iff, ofSelector_midField_eq_none_iff, and_assoc] at hgrounds
  rw [← hgrounds]
  rcases step_ends hs ht with ⟨herr, rfl⟩ | ⟨⟨i, rest, rm, hdec, -, -⟩, rfl⟩ | ⟨⟨i, rest, hdec, -⟩, hrun⟩
  · exact ⟨⟨fun _ => herr, fun _ => ⟨rfl, rfl⟩⟩, fun _ _ => ⟨rfl, step_of_faulted rfl⟩⟩
  · simp [hdec, Fault.cause]
  · simp [hdec, hrun]

/-- Settles O14: of the three ways a step ends only the second leaves this cause, and the other two exclude its situation. -/
theorem memoryOutOfBoundsExactly : Obligations.MemoryOutOfBoundsExactly := by
  intro s t hs ht
  rw [← State.fetchBytes_eq_code]
  rcases step_ends hs ht with ⟨⟨e, hdec⟩, rfl⟩ | ⟨hneg, rfl⟩ | ⟨⟨i, rest, hdec, hno⟩, hrun⟩
  · simp [hdec, Fault.cause]
  · exact ⟨fun _ => hneg, fun _ => ⟨rfl, rfl⟩⟩
  · simpa [hdec, hrun] using hno

end Sys2Proof.Machine
end

