-- ==== Sys2Proof/Proofs/Encoding.lean ====
section
/-! PROOF. The obligations about the decoder and the encoder (R50 to R70): part by part, reading the bytes of a part gives the
part back, and the part read has the bytes consumed; then the two round trips format by format. -/

namespace Sys2Proof

open Sys2Proof.Claims

/-! ## The encodings and the well-formed terms by format -/

/-- Byte 0 of each instruction of format J (R59). -/
def Jump.opcode : Jump → Byte
  | .jo => 0x70#8
  | .jno => 0x71#8
  | .jb => 0x72#8
  | .jnb => 0x73#8
  | .je => 0x74#8
  | .jnz => 0x75#8
  | .jbe => 0x76#8
  | .ja => 0x77#8
  | .js => 0x78#8
  | .jns => 0x79#8
  | .jp => 0x7A#8
  | .jnp => 0x7B#8
  | .jl => 0x7C#8
  | .jnl => 0x7D#8
  | .jle => 0x7E#8
  | .jg => 0x7F#8
  | .loopnz => 0xE0#8
  | .loopz => 0xE1#8
  | .loop => 0xE2#8
  | .jcxz => 0xE3#8

section
variable (k : ArithKind) (d : Dir) (w : Width) (rm : Rm) (reg : RegField) (imm : Imm) (gimm : GrpImm) (j : Jump) (disp : Byte)

theorem encode_rmReg : encode (k.rmReg d w rm reg) = encodeRmReg (opcodeRm k) d w rm reg := by cases k <;> rfl

theorem encode_rmImm : encode (k.rmImm rm gimm) = encodeGrp k rm gimm := by cases k <;> rfl

theorem encode_accImm : encode (k.accImm imm) = encodeIa (opcodeAcc k) imm := by cases k <;> rfl

theorem encode_jump : encode (j.instr disp) = [j.opcode, disp] := by cases j <;> rfl

@[simp] theorem wf_rmReg : (k.rmReg d w rm reg).wf = rm.wf := by cases k <;> rfl

@[simp] theorem wf_rmImm : (k.rmImm rm gimm).wf = rm.wf := by cases k <;> rfl

@[simp] theorem wf_accImm : (k.accImm imm).wf = true := by cases k <;> rfl

@[simp] theorem wf_jump : (j.instr disp).wf = true := by cases j <;> rfl

end

/-! ## The bits `d`, `s` and `w` as truth values -/

@[simp] theorem Width.bit_widthOfBit (w : Bool) : (widthOfBit w).bit = BitVec.ofBool w := by cases w <;> rfl

@[simp] theorem Dir.bit_dirOfBit (d : Bool) : (dirOfBit d).bit = BitVec.ofBool d := by cases d <;> rfl

theorem Width.exists_widthOfBit (w : Width) : ∃ b, widthOfBit b = w := by
  cases w with
  | byte => exact ⟨false, rfl⟩
  | word => exact ⟨true, rfl⟩

theorem Dir.exists_dirOfBit (d : Dir) : ∃ b, dirOfBit b = d := by
  cases d with
  | regIsSource => exact ⟨false, rfl⟩
  | regIsDest => exact ⟨true, rfl⟩

/-! ## From a part to its bytes and back (R61, R62) -/

theorem decodeWord_wordBytes (v : Word) (rest : List Byte) : decodeWord (wordBytes v ++ rest) = .ok (v, rest) := by
  rw [wordBytes, List.cons_append, List.cons_append, decodeWord_cons, le16_bytes, List.nil_append]

theorem Base.field_ne_bp {b : Base} (h : b ≠ .bp) : b.field ≠ 0b110#3 := by cases b <;> simp_all [Base.field]

/-- An operand that an encoding has is read back from its `mod`, its `rm` and its displacement. -/
theorem decodeRm_dispBytes {rm : Rm} (h : rm.wf = true) (rest : List Byte) :
    decodeRm rm.modBits rm.rmBits (rm.dispBytes ++ rest) = .ok (rm, rest) := by
  cases rm with
  | reg i => rfl
  | direct addr => simp [decodeRm, Rm.modBits, Rm.rmBits, Rm.dispBytes, decodeWord_wordBytes]
  | base b =>
    have hb : b.field ≠ 0b110#3 := Base.field_ne_bp (by rintro rfl; cases h)
    simp [decodeRm, Rm.modBits, Rm.rmBits, Rm.dispBytes, hb]
  | disp8 b d => simp [decodeRm, Rm.modBits, Rm.rmBits, Rm.dispBytes]
  | disp16 b d => simp [decodeRm, Rm.modBits, Rm.rmBits, Rm.dispBytes, decodeWord_wordBytes]

theorem decodeImm_bytes (imm : Imm) (rest : List Byte) :
    decodeImm imm.width (imm.bytes ++ rest) = .ok (imm, rest) := by
  cases imm with
  | imm8 v => rfl
  | imm16 v => simp [decodeImm, Imm.width, Imm.bytes, decodeWord_wordBytes]

/-- The `s` and `w` bits of an immediate of form GRP, and reading it back by them. -/
theorem decodeGrpImm_bytes (imm : GrpImm) (rest : List Byte) :
    ∃ s w, imm.signBit = BitVec.ofBool s ∧ imm.width.bit = BitVec.ofBool w ∧
      decodeGrpImm s w (imm.bytes ++ rest) = .ok (imm, rest) := by
  cases imm with
  | imm8 v => exact ⟨false, false, rfl, rfl, rfl⟩
  | imm16 v => exact ⟨false, true, rfl, rfl, by simp [decodeGrpImm, GrpImm.bytes, decodeWord_wordBytes]⟩
  | imm8s v => exact ⟨true, false, rfl, rfl, rfl⟩
  | sext8 v => exact ⟨true, true, rfl, rfl, rfl⟩

/-! ## From a part read to the bytes consumed -/

theorem Decoded.andThen_eq_ok {α β : Type} {r : Decoded α} {f : α → List Byte → Decoded β} {p : β × List Byte}
    (h : r.andThen f = .ok p) : ∃ a bs, r = .ok (a, bs) ∧ f a bs = .ok p := by
  match r, h with
  | .ok (a, bs), h => exact ⟨a, bs, rfl, h⟩

/-- The operand read is well formed and has the `mod` and `rm` it was read by (R95, R96). -/
theorem decodeRm_wf {mod : BitVec 2} {rm : BitVec 3} {bs rest : List Byte} {r : Rm}
    (h : decodeRm mod rm bs = .ok (r, rest)) : r.wf = true ∧ r.modBits = mod ∧ r.rmBits = rm := by
  have hfield := Base.field_ofField rm
  rcases Machine.mod_cases mod with rfl | rfl | rfl | rfl
  · cases h
    exact ⟨rfl, rfl, rfl⟩
  · by_cases hrm : rm = 0b110#3
    · subst hrm
      obtain ⟨v, -, rfl⟩ := Decoded.wrap_eq_ok h
      exact ⟨rfl, rfl, rfl⟩
    · have hdec : decodeRm 0b00#2 rm bs = .ok (.base (Base.ofField rm), bs) := by simp [decodeRm, hrm]
      rw [hdec] at h
      cases h
      refine ⟨?_, rfl, hfield⟩
      cases hb : Base.ofField rm with
      | bp => exact absurd (by rw [← hfield, hb]; rfl) hrm
      | _ => rfl
  · obtain ⟨v, -, rfl⟩ := Decoded.wrap_eq_ok h
    exact ⟨rfl, rfl, hfield⟩
  · obtain ⟨v, -, rfl⟩ := Decoded.wrap_eq_ok h
    exact ⟨rfl, rfl, hfield⟩

theorem decodeAddressing_ok {bs rest : List Byte} {mid : BitVec 3} {rm : Rm}
    (h : decodeAddressing bs = .ok ((mid, rm), rest)) : rm.wf = true ∧ rm.bytes mid ++ rest = bs := by
  obtain ⟨b1, bs', hb1, h⟩ := Decoded.andThen_eq_ok h
  obtain ⟨r, hrm, hr⟩ := Decoded.wrap_eq_ok h
  cases hr
  obtain ⟨hwf, hmod, hlow⟩ := decodeRm_wf hrm
  refine ⟨hwf, ?_⟩
  rw [decodeByte_ok hb1, decodeRm_ok hrm, Rm.bytes, hmod, hlow, addressing_of_fields]
  rfl

theorem decodeImm_ok {w : Width} {bs rest : List Byte} {imm : Imm} (h : decodeImm w bs = .ok (imm, rest)) :
    imm.width = w ∧ imm.bytes ++ rest = bs := by
  cases w with
  | byte =>
    obtain ⟨v, hv, rfl⟩ := Decoded.wrap_eq_ok h
    exact ⟨rfl, (decodeByte_ok hv).symm⟩
  | word =>
    obtain ⟨v, hv, rfl⟩ := Decoded.wrap_eq_ok h
    exact ⟨rfl, (decodeWord_ok hv).symm⟩

theorem decodeGrpImm_ok {s w : Bool} {bs rest : List Byte} {imm : GrpImm} (h : decodeGrpImm s w bs = .ok (imm, rest)) :
    imm.signBit = BitVec.ofBool s ∧ imm.width.bit = BitVec.ofBool w ∧ imm.bytes ++ rest = bs := by
  match s, w, h with
  | false, false, h =>
    obtain ⟨v, hv, rfl⟩ := Decoded.wrap_eq_ok h
    exact ⟨rfl, rfl, (decodeByte_ok hv).symm⟩
  | false, true, h =>
    obtain ⟨v, hv, rfl⟩ := Decoded.wrap_eq_ok h
    exact ⟨rfl, rfl, (decodeWord_ok hv).symm⟩
  | true, false, h =>
    obtain ⟨v, hv, rfl⟩ := Decoded.wrap_eq_ok h
    exact ⟨rfl, rfl, (decodeByte_ok hv).symm⟩
  | true, true, h =>
    obtain ⟨v, hv, rfl⟩ := Decoded.wrap_eq_ok h
    exact ⟨rfl, rfl, (decodeByte_ok hv).symm⟩

theorem ArithKind.selector_of_ofSelector {sel : BitVec 3} {k : ArithKind} (h : ArithKind.ofSelector sel = some k) :
    k.selector = sel := by
  unfold ArithKind.ofSelector at h
  split at h
  · cases h
    exact Eq.symm ‹_›
  split at h
  · cases h
    exact Eq.symm ‹_›
  split at h
  · cases h
    exact Eq.symm ‹_›
  · cases h

/-! ## Byte 0 and its form (R51) -/

/-- Byte 0 written out again: the opcode bits of a form, and the fields of `b` that the form has (R53 to R59). -/
def Form.opcodeByte (f : Form) (b : Byte) : Byte :=
  match f with
  | .rmMov => opcodeByte6 0b100010#6 (BitVec.ofBool (dBit b)) (BitVec.ofBool (wBit b))
  | .rmArith k => opcodeByte6 (opcodeRm k) (BitVec.ofBool (dBit b)) (BitVec.ofBool (wBit b))
  | .irm => opcodeByte7 0b1100011#7 (BitVec.ofBool (wBit b))
  | .ir => opcodeByte4 0b1011#4 (BitVec.ofBool (irWBit b)) (lowField b)
  | .maLoad => opcodeByte7 0b1010000#7 (BitVec.ofBool (wBit b))
  | .maStore => opcodeByte7 0b1010001#7 (BitVec.ofBool (wBit b))
  | .grp => opcodeByte6 0b100000#6 (BitVec.ofBool (dBit b)) (BitVec.ofBool (wBit b))
  | .ia k => opcodeByte7 (opcodeAcc k) (BitVec.ofBool (wBit b))
  | .j jump => jump.opcode

/-- No bit of a recognised byte 0 is lost: its form and its fields give it back. -/
theorem opcodeByte_of_mem_dispatch : ∀ b : Byte, ∀ f ∈ dispatch b, f.opcodeByte b = b := by decide

theorem opcodeByte_of_dispatch {b : Byte} {f : Form} (h : dispatch b = some f) : f.opcodeByte b = b :=
  opcodeByte_of_mem_dispatch b f h

theorem dispatch_jumpOpcode (j : Jump) : dispatch j.opcode = some (.j j) := by cases j <;> decide

/-! ## Encode, then decode -/

theorem decodeAddressing_bytes {rm : Rm} (h : rm.wf = true) (mid : BitVec 3) (rest : List Byte) :
    decodeAddressing (rm.bytes mid ++ rest) = .ok ((mid, rm), rest) := by
  rw [Rm.bytes, addressingByte, List.cons_append, decodeAddressing_fields, decodeRm_dispBytes h, Decoded.wrap_ok]

/-- Format RM, with the opcode of any of its four instructions. -/
theorem decode_encodeRmReg {op : BitVec 6} {f : Form} {mk : Dir → Width → Rm → RegField → Instr}
    (hop : ∀ d w, dispatch (op ++ BitVec.ofBool d ++ BitVec.ofBool w) = some f)
    (hf : decodeForm f = decodeRmReg mk) {rm : Rm} (hrm : rm.wf = true) (d : Dir) (w : Width) (reg : RegField)
    (rest : List Byte) : decode (encodeRmReg op d w rm reg ++ rest) = .ok (mk d w rm reg, rest) := by
  obtain ⟨d, rfl⟩ := d.exists_dirOfBit
  obtain ⟨w, rfl⟩ := w.exists_widthOfBit
  rw [encodeRmReg, opcodeByte6, Dir.bit_dirOfBit, Width.bit_widthOfBit, List.cons_append, decode_of_dispatch (hop d w), hf,
    decodeRmReg, decodeAddressing_bytes hrm, dBit_opcodeRm, wBit_opcodeRm]
  rfl

theorem decode_encodeGrp {rm : Rm} (hrm : rm.wf = true) (k : ArithKind) (imm : GrpImm) (rest : List Byte) :
    decode (encodeGrp k rm imm ++ rest) = .ok (k.rmImm rm imm, rest) := by
  obtain ⟨s, w, hs, hw, himm⟩ := decodeGrpImm_bytes imm rest
  rw [encodeGrp, opcodeByte6, hs, hw, Rm.bytes, List.cons_append, List.cons_append, List.cons_append, List.append_assoc,
    decode_of_dispatch (dispatch_arithRmImm s w)]
  exact decodeGrp_fields (decodeRm_dispBytes hrm _) himm _ k

theorem decode_encodeIa (k : ArithKind) (imm : Imm) (rest : List Byte) :
    decode (encodeIa (opcodeAcc k) imm ++ rest) = .ok (k.accImm imm, rest) := by
  obtain ⟨w, hw⟩ := imm.width.exists_widthOfBit
  rw [encodeIa, opcodeByte7, ← hw, Width.bit_widthOfBit, List.cons_append, decode_of_dispatch (dispatch_arithAccImm k w),
    decodeForm, wBit_opcode7, hw, decodeImm_bytes, Decoded.wrap_ok]

theorem decode_encode_movRmImm {rm : Rm} (hrm : rm.wf = true) (ign : BitVec 3) (imm : Imm) (rest : List Byte) :
    decode (encode (.movRmImm ign rm imm) ++ rest) = .ok (.movRmImm ign rm imm, rest) := by
  obtain ⟨w, hw⟩ := imm.width.exists_widthOfBit
  have himm := decodeImm_bytes imm rest
  rw [← hw] at himm
  rw [encode, opcodeByte7, ← hw, Width.bit_widthOfBit, Rm.bytes, List.cons_append, List.cons_append, List.cons_append,
    List.append_assoc, decode_of_dispatch (dispatch_movRmImm w)]
  exact decodeIrm_fields (decodeRm_dispBytes hrm _) himm _ ign

theorem decode_encode_movRegImm (reg : RegField) (imm : Imm) (rest : List Byte) :
    decode (encode (.movRegImm reg imm) ++ rest) = .ok (.movRegImm reg imm, rest) := by
  obtain ⟨w, hw⟩ := imm.width.exists_widthOfBit
  rw [encode, opcodeByte4, ← hw, Width.bit_widthOfBit, List.cons_append, decode_of_dispatch (dispatch_movRegImm w _),
    decodeForm, irWBit_opcode4, lowField_opcode4, hw, decodeImm_bytes]
  rfl

theorem decode_encode_movAccMem (w : Width) (addr : Word) (rest : List Byte) :
    decode (encode (.movAccMem w addr) ++ rest) = .ok (.movAccMem w addr, rest) := by
  obtain ⟨w, rfl⟩ := w.exists_widthOfBit
  rw [encode, opcodeByte7, Width.bit_widthOfBit, List.cons_append, decode_of_dispatch (dispatch_movAccMem w), decodeForm,
    wBit_opcode7, decodeWord_wordBytes, Decoded.wrap_ok]

theorem decode_encode_movMemAcc (w : Width) (addr : Word) (rest : List Byte) :
    decode (encode (.movMemAcc w addr) ++ rest) = .ok (.movMemAcc w addr, rest) := by
  obtain ⟨w, rfl⟩ := w.exists_widthOfBit
  rw [encode, opcodeByte7, Width.bit_widthOfBit, List.cons_append, decode_of_dispatch (dispatch_movMemAcc w), decodeForm,
    wBit_opcode7, decodeWord_wordBytes, Decoded.wrap_ok]

theorem decode_encode_jump (j : Jump) (disp : Byte) (rest : List Byte) :
    decode (encode (j.instr disp) ++ rest) = .ok (j.instr disp, rest) := by
  rw [encode_jump, List.cons_append, decode_of_dispatch (dispatch_jumpOpcode j)]
  rfl

/-! ## Decode, then encode -/

section
variable {b0 : Byte} {bs rest : List Byte} {i : Instr}

/-- What is to be shown of an instruction read from `b0` and the bytes after it. -/
def ReadsBack (b0 : Byte) (bs rest : List Byte) (i : Instr) : Prop := i.wf = true ∧ encode i ++ rest = b0 :: bs

/-- Format RM, with the opcode of any of its four instructions. -/
theorem decodeRmReg_readsBack {op : BitVec 6} {mk : Dir → Width → Rm → RegField → Instr}
    (henc : ∀ d w rm reg, encode (mk d w rm reg) = encodeRmReg op d w rm reg)
    (hwf : ∀ d w rm reg, (mk d w rm reg).wf = rm.wf)
    (hb0 : opcodeByte6 op (BitVec.ofBool (dBit b0)) (BitVec.ofBool (wBit b0)) = b0)
    (h : decodeRmReg mk b0 bs = .ok (i, rest)) : ReadsBack b0 bs rest i := by
  obtain ⟨⟨reg, rm⟩, haddr, rfl⟩ := Decoded.wrap_eq_ok h
  obtain ⟨hrm, hbs⟩ := decodeAddressing_ok haddr
  refine ⟨(hwf _ _ _ _).trans hrm, ?_⟩
  rw [henc, encodeRmReg, Dir.bit_dirOfBit, Width.bit_widthOfBit, hb0, fieldOfReg_regOfField, List.cons_append, hbs]

theorem decodeIrm_readsBack (hb0 : Form.irm.opcodeByte b0 = b0) (h : decodeIrm b0 bs = .ok (i, rest)) :
    ReadsBack b0 bs rest i := by
  obtain ⟨⟨ign, rm⟩, bs', haddr, h⟩ := Decoded.andThen_eq_ok h
  obtain ⟨imm, himm, rfl⟩ := Decoded.wrap_eq_ok h
  obtain ⟨hrm, hbs⟩ := decodeAddressing_ok haddr
  obtain ⟨hw, hbs'⟩ := decodeImm_ok himm
  refine ⟨hrm, ?_⟩
  rw [Form.opcodeByte] at hb0
  rw [encode, hw, Width.bit_widthOfBit, hb0, List.cons_append, List.append_assoc, hbs', hbs]

theorem decodeGrp_readsBack (hb0 : Form.grp.opcodeByte b0 = b0) (h : decodeGrp b0 bs = .ok (i, rest)) :
    ReadsBack b0 bs rest i := by
  obtain ⟨b1, bs1, hb1, h⟩ := Decoded.andThen_eq_ok h
  cases hsel : ArithKind.ofSelector (midField b1) with
  | none => simp [hsel] at h
  | some k =>
    simp only [hsel] at h
    obtain ⟨rm, bs2, hrm, h⟩ := Decoded.andThen_eq_ok h
    obtain ⟨imm, himm, rfl⟩ := Decoded.wrap_eq_ok h
    obtain ⟨hwf, hmod, hlow⟩ := decodeRm_wf hrm
    obtain ⟨hs, hw, hbs2⟩ := decodeGrpImm_ok himm
    refine ⟨(wf_rmImm k rm imm).trans hwf, ?_⟩
    rw [Form.opcodeByte] at hb0
    rw [encode_rmImm, encodeGrp, hs, hw, hb0, Rm.bytes, hmod, hlow, ArithKind.selector_of_ofSelector hsel,
      addressing_of_fields, decodeByte_ok hb1, decodeRm_ok hrm, ← hbs2]
    simp

/-- An immediate after byte 0: formats IR and IA. -/
theorem decodeImm_readsBack {w : Bool} {mk : Imm → Instr} (hwf : ∀ imm, (mk imm).wf = true)
    (henc : ∀ imm, imm.width = widthOfBit w → encode (mk imm) = b0 :: imm.bytes)
    (h : (decodeImm (widthOfBit w) bs).wrap mk = .ok (i, rest)) : ReadsBack b0 bs rest i := by
  obtain ⟨imm, himm, rfl⟩ := Decoded.wrap_eq_ok h
  obtain ⟨hw, hbs⟩ := decodeImm_ok himm
  refine ⟨hwf imm, ?_⟩
  rw [henc imm hw, List.cons_append, hbs]

/-- A direct address after byte 0: format MA. -/
theorem decodeWord_readsBack {mk : Word → Instr} (hwf : ∀ v, (mk v).wf = true)
    (henc : ∀ v, encode (mk v) = b0 :: wordBytes v) (h : (decodeWord bs).wrap mk = .ok (i, rest)) :
    ReadsBack b0 bs rest i := by
  obtain ⟨v, hv, rfl⟩ := Decoded.wrap_eq_ok h
  refine ⟨hwf v, ?_⟩
  rw [henc v, List.cons_append, ← decodeWord_ok hv]

theorem decodeForm_readsBack {f : Form} (hf : dispatch b0 = some f) (h : decodeForm f b0 bs = .ok (i, rest)) :
    ReadsBack b0 bs rest i := by
  have hb0 := opcodeByte_of_dispatch hf
  cases f with
  | rmMov => exact decodeRmReg_readsBack (fun _ _ _ _ => rfl) (fun _ _ _ _ => rfl) hb0 h
  | rmArith k => exact decodeRmReg_readsBack (encode_rmReg k) (wf_rmReg k) hb0 h
  | irm => exact decodeIrm_readsBack hb0 h
  | ir =>
    refine decodeImm_readsBack (fun _ => rfl) (fun imm hw => ?_) h
    rw [encode, hw, Width.bit_widthOfBit, fieldOfReg_regOfField]
    exact congrArg (· :: imm.bytes) hb0
  | maLoad =>
    refine decodeWord_readsBack (fun _ => rfl) (fun v => ?_) h
    rw [encode, Width.bit_widthOfBit]
    exact congrArg (· :: wordBytes v) hb0
  | maStore =>
    refine decodeWord_readsBack (fun _ => rfl) (fun v => ?_) h
    rw [encode, Width.bit_widthOfBit]
    exact congrArg (· :: wordBytes v) hb0
  | grp => exact decodeGrp_readsBack hb0 h
  | ia k =>
    refine decodeImm_readsBack (wf_accImm k) (fun imm hw => ?_) h
    rw [encode_accImm, encodeIa, hw, Width.bit_widthOfBit]
    exact congrArg (· :: imm.bytes) hb0
  | j jump =>
    obtain ⟨disp, hdisp, rfl⟩ := Decoded.wrap_eq_ok h
    refine ⟨wf_jump jump disp, ?_⟩
    rw [encode_jump, decodeByte_ok hdisp]
    exact congrArg (· :: disp :: rest) hb0

end

/-! ## The obligations -/

/-- Settles O2: format by format, each part read back from its own bytes. -/
theorem decodeOfEncode : Obligations.DecodeOfEncode := by
  intro i rest h
  cases i using Instr.byFormat with
  | movRmReg d w rm reg => exact decode_encodeRmReg (mk := .movRmReg) dispatch_movRmReg rfl h d w reg rest
  | movRmImm ign rm imm => exact decode_encode_movRmImm h ign imm rest
  | movRegImm reg imm => exact decode_encode_movRegImm reg imm rest
  | movAccMem w addr => exact decode_encode_movAccMem w addr rest
  | movMemAcc w addr => exact decode_encode_movMemAcc w addr rest
  | rmReg k d w rm reg =>
    rw [wf_rmReg] at h
    rw [encode_rmReg]
    exact decode_encodeRmReg (mk := k.rmReg) (dispatch_arithRmReg k) rfl h d w reg rest
  | rmImm k rm imm =>
    rw [wf_rmImm] at h
    rw [encode_rmImm, decode_encodeGrp h]
  | accImm k imm => rw [encode_accImm, decode_encodeIa]
  | jump j disp => exact decode_encode_jump j disp rest

/-- Settles O3: byte 0 decides the form, and each part read has the bytes it was read from. -/
theorem encodeOfDecode : Obligations.EncodeOfDecode := by
  intro bs rest i h
  match bs, h with
  | b0 :: bs, h =>
    cases hd : dispatch b0 with
    | none => simp [decode, hd] at h
    | some f =>
      rw [decode_of_dispatch hd] at h
      exact decodeForm_readsBack hd h

/-- Settles O1: each word is decoded by evaluation. -/
theorem specWordsDecode : Obligations.SpecWordsDecode := ⟨rfl, rfl, rfl, rfl, rfl⟩

end Sys2Proof
end

