-- ==== Sys2Proof/Proofs/Completes.lean ====
section
/-! PROOF. The obligations that instructions complete where their operand can be accessed, and trap where its address is
negative (R120 to R173, R184). -/

namespace Sys2Proof.Machine

open Sys2Proof.Claims

/-! ## The table of conditions (R151) -/

/-- The state a jump or a loop tests and then branches from: `cx` is decremented for a loop under `extended` (R151). -/
def jumpStart (j : Jump) (s : State) : State := if isLoop j = true ∧ s.branchExec = .extended then cxDecremented s else s

/-- The entry of R151 for a jump at a state. -/
def takenAt (j : Jump) (s : State) : Prop := taken s.branchExec j s.zf s.sf ((jumpStart j s).x.read 1)

theorem jumpStart_of_not_loop {j : Jump} (hj : isLoop j = false) (s : State) : jumpStart j s = s := by
  simp [jumpStart, hj]

theorem jumpStart_of_jnzOnly {s : State} (h : s.branchExec = .jnzOnly) (j : Jump) : jumpStart j s = s := by
  simp [jumpStart, h]

theorem jumpStart_of_extended {s : State} (h : s.branchExec = .extended) {j : Jump} (hj : isLoop j = true) :
    jumpStart j s = cxDecremented s := if_pos ⟨hj, h⟩

theorem ipPlus_jumpStart (j : Jump) (s : State) (n : Int) : ipPlus (jumpStart j s) n = ipPlus s n := by
  unfold jumpStart
  split <;> rfl

theorem not_taken_twelveJumps {j : Jump} (h : j ∈ twelveJumps) (be : BranchExec) (zf sf : Bool) (cx : Word) :
    ¬ taken be j zf sf cx := by
  unfold twelveJumps at h
  fin_cases h <;> simp [taken]

theorem not_taken_loop_of_jnzOnly {j : Jump} (hj : isLoop j = true) (zf sf : Bool) (cx : Word) :
    ¬ taken .jnzOnly j zf sf cx := by
  rintro (⟨rfl, -⟩ | ⟨hbe, -⟩)
  · cases hj
  · cases hbe

/-- The state after a jump, by the entry of R151. -/
def JumpsByTable (j : Jump) (disp : Byte) (s : State) : Prop :=
  (takenAt j s → exec (j.instr disp) s = .next { jumpStart j s with ip := ipPlus s (2 + disp.toInt) }) ∧
  (¬ takenAt j s → exec (j.instr disp) s = .next { jumpStart j s with ip := ipPlus s 2 })

section
variable {j : Jump} {disp : Byte} {s : State}

/-- A branch under a condition that is the entry of R151. -/
theorem jumpsByTable_of_branched {p : Prop} [Decidable p]
    (hexec : exec (j.instr disp) s = .next (branched (jumpStart j s) p disp)) (hp : takenAt j s ↔ p) :
    JumpsByTable j disp s := by
  rw [branched, ipPlus_jumpStart, ipPlus_jumpStart] at hexec
  refine ⟨fun h => ?_, fun h => ?_⟩
  · rw [hexec, if_pos (hp.1 h)]
  · rw [hexec, if_neg (mt hp.2 h)]

theorem jumpsByTable_of_not_taken (hstart : jumpStart j s = s) (hnot : ¬ takenAt j s)
    (hexec : exec (j.instr disp) s = .next { s with ip := ipPlus s 2 }) : JumpsByTable j disp s :=
  ⟨fun h => absurd h hnot, fun _ => by rw [hstart, hexec]⟩

/-- A loop tests `cx` after the decrement, under `extended` alone (R170 to R172). -/
theorem jumpsByTable_of_loop {p : Prop} [Decidable p] (hj : isLoop j = true)
    (hexec : s.branchExec = .extended → exec (j.instr disp) s = .next (branched (cxDecremented s) p disp))
    (hp : taken .extended j s.zf s.sf (cxLess s) ↔ p) : JumpsByTable j disp s := by
  cases hbe : s.branchExec with
  | jnzOnly =>
    refine jumpsByTable_of_not_taken (jumpStart_of_jnzOnly hbe j) ?_ (exec_loops_of_jnzOnly disp hbe hj)
    rw [takenAt, hbe]
    exact not_taken_loop_of_jnzOnly hj _ _ _
  | extended =>
    have hcx : (cxDecremented s).x.read 1 = cxLess s := cxDecremented_cx s
    have hstart := jumpStart_of_extended hbe hj
    refine jumpsByTable_of_branched (p := p) ?_ ?_
    · rw [hstart]
      exact hexec hbe
    · rw [takenAt, hstart, hbe, hcx, hp]

theorem jumpsByTable_of_twelveJumps (h : j ∈ twelveJumps) (hj : isLoop j = false) : JumpsByTable j disp s :=
  jumpsByTable_of_not_taken (jumpStart_of_not_loop hj s) (not_taken_twelveJumps h _ _ _ _) (exec_twelveJumps disp s h)

end

/-- For each jump its condition is the entry of R151; the twelve are never taken, the loops only under `extended`. -/
theorem jumpsByTable (j : Jump) (disp : Byte) (s : State) : JumpsByTable j disp s := by
  cases j with
  | je => exact jumpsByTable_of_branched (exec_je disp s) (by simp [takenAt, taken])
  | jnz => exact jumpsByTable_of_branched (exec_jnz disp s) (by simp [takenAt, taken])
  | js => exact jumpsByTable_of_branched (exec_js disp s) (by simp [takenAt, taken])
  | jns => exact jumpsByTable_of_branched (exec_jns disp s) (by simp [takenAt, taken])
  | jcxz =>
    have hstart : jumpStart .jcxz s = s := jumpStart_of_not_loop rfl s
    exact jumpsByTable_of_branched (exec_jcxz disp s) (by simp [takenAt, taken, hstart])
  | loopnz => exact jumpsByTable_of_loop rfl (exec_loopnz_of_extended disp) (by simp [taken])
  | loopz => exact jumpsByTable_of_loop rfl (exec_loopz_of_extended disp) (by simp [taken])
  | loop => exact jumpsByTable_of_loop rfl (exec_loop_of_extended disp) (by simp [taken])
  | _ => exact jumpsByTable_of_twelveJumps (by decide) rfl

/-! ## The obligations -/

/-- Settles O36: `jumpsByTable`, its words written out. -/
theorem jumpsComplete : Obligations.JumpsComplete := jumpsByTable

/-- Settles O26: what each of the five does with an operand that can be accessed; the last three always can. -/
theorem movCompletes : Obligations.MovCompletes := by
  intro s
  refine ⟨fun d w rm reg h => ?_, fun ign rm imm h => ?_, fun reg imm => ?_, fun w addr => ?_, fun w addr => ?_⟩
  · exact exec_movRmReg_of_accessible h d w reg
  · exact exec_movRmImm_of_accessible h ign imm
  · exact exec_movRegImm s reg imm
  · exact exec_movAccMem s w addr
  · exact exec_movMemAcc s w addr

/-- Settles O30: what each of the three formats does, for the three operations at once. -/
theorem arithCompletes : Obligations.ArithCompletes := by
  intro k s
  refine ⟨fun d w rm reg h => ?_, fun rm imm h => ?_, fun imm => ?_⟩
  · exact exec_rmReg_of_accessible h k d w reg
  · exact exec_rmImm_of_accessible h k imm
  · exact exec_accImm_next k imm s

/-- Settles O15: an operand with a negative address is one that cannot be accessed. -/
theorem negativeAddressTraps : Obligations.NegativeAddressTraps := by
  intro i rm s hrm hneg
  exact exec_of_not_accessible hrm fun hacc => (accessible_resolve_iff rm s.x).1 hacc hneg

end Sys2Proof.Machine
end

