-- ==== Sys2Proof/Proofs/Effect.lean ====
section
/-! PROOF. Everything an instruction and a step can do, said once (R90 to R182), for the frames and the invariant to use; and
the obligations about which instruction a step runs. -/

namespace Sys2Proof

open Sys2Proof.Claims

/-! ## Lengths and destinations by format -/

section
variable (k : ArithKind) (d : Dir) (w : Width) (rm : Rm) (reg : RegField) (imm : Imm) (gimm : GrpImm) (j : Jump) (disp : Byte)

@[simp] theorem length_rmReg : (k.rmReg d w rm reg).length = 2 + rm.dispLen := by cases k <;> rfl

@[simp] theorem length_rmImm : (k.rmImm rm gimm).length = 2 + rm.dispLen + gimm.len := by cases k <;> rfl

@[simp] theorem length_accImm : (k.accImm imm).length = 1 + imm.len := by cases k <;> rfl

@[simp] theorem length_jump : (j.instr disp).length = 2 := by cases j <;> rfl

@[simp] theorem writesFlags_rmReg : writesFlags (k.rmReg d w rm reg) = true := by cases k <;> rfl

@[simp] theorem writesFlags_rmImm : writesFlags (k.rmImm rm gimm) = true := by cases k <;> rfl

@[simp] theorem writesFlags_accImm : writesFlags (k.accImm imm) = true := by cases k <;> rfl

@[simp] theorem dest_jump (x : Machine.Regs) : dest (j.instr disp) x = none := by cases j <;> rfl

@[simp] theorem jumpDisp_jump : jumpDisp (j.instr disp) = some disp := by cases j <;> rfl

@[simp] theorem decrementsCx_jump : decrementsCx (j.instr disp) = isLoop j := by cases j <;> rfl

end

end Sys2Proof

namespace Sys2Proof.Machine

open Sys2Proof.Claims

theorem dest_rmReg {k : ArithKind} (hk : k ≠ .cmp) (d : Dir) (w : Width) (rm : Rm) (reg : RegField) (x : Regs) :
    dest (k.rmReg d w rm reg) x = some (Dir.dst d (resolve rm x) (.reg reg), w) := by
  cases k with
  | cmp => exact absurd rfl hk
  | _ => rfl

theorem dest_rmImm {k : ArithKind} (hk : k ≠ .cmp) (rm : Rm) (imm : GrpImm) (x : Regs) :
    dest (k.rmImm rm imm) x = some (resolve rm x, imm.width) := by
  cases k with
  | cmp => exact absurd rfl hk
  | _ => rfl

theorem dest_accImm {k : ArithKind} (hk : k ≠ .cmp) (imm : Imm) (x : Regs) :
    dest (k.accImm imm) x = some (.reg 0, imm.width) := by
  cases k with
  | cmp => exact absurd rfl hk
  | _ => rfl

/-! ## Everything an instruction can do -/

/-- The registers a jump or a loop leaves (R151). -/
def JumpRegs (j : Jump) (s : State) (x : Regs) : Prop :=
  x = s.x ∨ (isLoop j = true ∧ s.branchExec = .extended ∧ x = s.x.write 1 (cxLess s))

/-- The next states an instruction can have: a trap, a copy, a result stored, a result compared, a jump. -/
inductive Effect (i : Instr) (s : State) : State → Prop
  /-- The `mod`/`rm` operand cannot be accessed (R182, R184). -/
  | trapped {rm : Rm} (hrm : rmOf i = some rm) (hacc : ¬ Accessible (resolve rm s.x)) : Effect i s (raisedOutOfBounds s)
  /-- MOV (R125). -/
  | copied {dst : Operand} {w : Width} (hdst : dest i s.x = some (dst, w)) (hin : dst.InBounds w) (v : BitVec w.bits) :
      Effect i s { putOperand s dst w v with ip := ipPlus s i.length }
  /-- ADD and SUB (R132). -/
  | stored {dst : Operand} {w : Width} (hflags : writesFlags i = true) (hdst : dest i s.x = some (dst, w))
      (hin : dst.InBounds w) (r : BitVec w.bits) :
      Effect i s { (putOperand s dst w r).setZS r with ip := ipPlus s i.length }
  /-- CMP (R132). -/
  | compared {w : Width} (hflags : writesFlags i = true) (r : BitVec w.bits) :
      Effect i s { s.setZS r with ip := ipPlus s i.length }
  /-- The jumps and the loops (R150, R151). -/
  | jumped {j : Jump} {disp : Byte} (hi : i = j.instr disp) {x : Regs} (hx : JumpRegs j s x) {n : Int}
      (hn : n = 2 ∨ n = 2 + disp.toInt) : Effect i s { s with x := x, ip := ipPlus s n }

section
variable {i : Instr} {s : State}

/-- `Arith` on an operand that can be accessed stores its result, or for CMP only sets the flags (R132). -/
theorem Effect.of_calculated {k : ArithKind} {dst : Operand} {w : Width} {n : Nat} (hflags : writesFlags i = true)
    (hdst : k ≠ .cmp → dest i s.x = some (dst, w)) (hin : dst.InBounds w) (hn : i.length = n) (b : BitVec w.bits) :
    Effect i s (calculated s k dst w b n) := by
  subst hn
  have hcalc : ∃ r, calculated s k dst w b i.length =
      { (if k = .cmp then s else putOperand s dst w r).setZS r with ip := ipPlus s i.length } :=
    ⟨arithResult k (getOperand s dst w) b, by rw [State.setZS_eq]; rfl⟩
  obtain ⟨r, hr⟩ := hcalc
  rw [hr]
  by_cases hk : k = .cmp
  · rw [if_pos hk]
    exact .compared hflags r
  · rw [if_neg hk]
    exact .stored hflags (hdst hk) hin r

theorem jumpStart_eq (j : Jump) (s : State) : ∃ x, JumpRegs j s x ∧ jumpStart j s = { s with x := x } := by
  by_cases h : isLoop j = true ∧ s.branchExec = .extended
  · exact ⟨_, .inr ⟨h.1, h.2, rfl⟩, if_pos h⟩
  · exact ⟨s.x, .inl rfl, if_neg h⟩

theorem exec_jump_effect (j : Jump) (disp : Byte) (s : State) :
    ∃ t, exec (j.instr disp) s = .next t ∧ Effect (j.instr disp) s t := by
  obtain ⟨x, hx, hstart⟩ := jumpStart_eq j s
  obtain ⟨htaken, hnot⟩ := jumpsByTable j disp s
  rw [hstart] at htaken hnot
  by_cases h : takenAt j s
  · exact ⟨_, htaken h, .jumped rfl hx (.inr rfl)⟩
  · exact ⟨_, hnot h, .jumped rfl hx (.inl rfl)⟩

theorem exec_effect_of_accessible (i : Instr) (h : ∀ rm, rmOf i = some rm → Accessible (resolve rm s.x)) :
    ∃ t, exec i s = .next t ∧ Effect i s t := by
  have hin {rm : Rm} (hrm : rmOf i = some rm) (w : Width) : (resolve rm s.x).InBounds w :=
    (Operand.inBounds_resolve rm s.x w).2 (h rm hrm)
  cases i using Instr.byFormat with
  | movRmReg d w rm reg =>
    exact ⟨_, exec_movRmReg_of_accessible (h rm rfl) d w reg,
      .copied rfl (Dir.dst_inBounds d (hin rfl w) (Operand.inBounds_reg reg w)) _⟩
  | movRmImm ign rm imm => exact ⟨_, exec_movRmImm_of_accessible (h rm rfl) ign imm, .copied rfl (hin rfl _) _⟩
  | movRegImm reg imm => exact ⟨_, exec_movRegImm s reg imm, .copied rfl (Operand.inBounds_reg reg _) _⟩
  | movAccMem w addr => exact ⟨_, exec_movAccMem s w addr, .copied rfl (Operand.inBounds_reg 0 w) _⟩
  | movMemAcc w addr =>
    exact ⟨_, exec_movMemAcc s w addr, .copied rfl (Operand.inBounds_mem.2 (inBounds_direct addr w)) _⟩
  | rmReg k d w rm reg =>
    have hrm := rmOf_rmReg k d w rm reg
    exact ⟨_, exec_rmReg_of_accessible (h rm hrm) k d w reg, .of_calculated (writesFlags_rmReg ..)
      (fun hk => dest_rmReg hk d w rm reg s.x) (Dir.dst_inBounds d (hin hrm w) (Operand.inBounds_reg reg w))
      (length_rmReg ..) _⟩
  | rmImm k rm imm =>
    have hrm := rmOf_rmImm k rm imm
    exact ⟨_, exec_rmImm_of_accessible (h rm hrm) k imm, .of_calculated (writesFlags_rmImm ..)
      (fun hk => dest_rmImm hk rm imm s.x) (hin hrm _) (length_rmImm ..) _⟩
  | accImm k imm =>
    exact ⟨_, exec_accImm_next k imm s, .of_calculated (writesFlags_accImm ..)
      (fun hk => dest_accImm hk imm s.x) (Operand.inBounds_reg 0 _) (length_accImm ..) _⟩
  | jump j disp => exact exec_jump_effect j disp s

/-- Every instruction, from every state, has a next state, and it is one of its effects. -/
theorem exec_effect (i : Instr) (s : State) : ∃ t, exec i s = .next t ∧ Effect i s t := by
  by_cases h : ∃ rm, rmOf i = some rm ∧ ¬ Accessible (resolve rm s.x)
  · obtain ⟨rm, hrm, hacc⟩ := h
    exact ⟨_, exec_of_not_accessible hrm hacc, .trapped hrm hacc⟩
  · exact exec_effect_of_accessible i fun rm hrm => by_contra fun hacc => h ⟨rm, hrm, hacc⟩

theorem Effect.of_exec {t : State} (h : exec i s = .next t) : Effect i s t := by
  obtain ⟨t', ht', heff⟩ := exec_effect i s
  rw [h] at ht'
  cases ht'
  exact heff

end

/-! ## Everything a step can do (R90) -/

/-- The next states a step can have. -/
inductive StepEffect (s : State) : State → Prop
  /-- A stopped core is unchanged (R21). -/
  | stopped (hstop : s.status ≠ .running) : StepEffect s s
  /-- The halt check fired (R91). -/
  | halted (hrun : s.status = .running) (hend : s.progLen ≤ s.ip.toNat) : StepEffect s s.halt
  /-- The bytes at `ip` are no instruction (R183). -/
  | unrecognized (hs : Ready s) {e : DecodeError} (hdec : decode s.fetchBytes = .error e) :
      StepEffect s (s.raise .unrecognizedOpcode)
  /-- The instruction at `ip` ran. -/
  | executed (hs : Ready s) {i : Instr} {rest : List Byte} (hdec : decode s.fetchBytes = .ok (i, rest)) {t : State}
      (hexec : Effect i s t) : StepEffect s t

section
variable {s : State}

theorem step_of_not_running (h : s.status ≠ .running) : step s = .next s := by
  unfold step
  split
  · rfl
  · rfl
  · exact absurd ‹_› h

theorem step_of_atEnd (hrun : s.status = .running) (hend : s.progLen ≤ s.ip.toNat) : step s = .next s.halt := by
  simp [step, hrun, State.atEnd, hend]

/-- Every step has a next state, and it is one of its effects. -/
theorem step_effect (s : State) : ∃ t, step s = .next t ∧ StepEffect s t := by
  by_cases hrun : s.status = .running
  · by_cases hend : s.progLen ≤ s.ip.toNat
    · exact ⟨_, step_of_atEnd hrun hend, .halted hrun hend⟩
    · have hs : Ready s := ⟨hrun, Nat.lt_of_not_le hend⟩
      cases hdec : decode s.fetchBytes with
      | error e => exact ⟨_, step_of_decode_error hs hdec, .unrecognized hs hdec⟩
      | ok p =>
        obtain ⟨i, rest⟩ := p
        obtain ⟨t, ht, heff⟩ := exec_effect i s
        exact ⟨t, (step_of_decode hs hdec).trans ht, .executed hs hdec heff⟩
  · exact ⟨_, step_of_not_running hrun, .stopped hrun⟩

theorem StepEffect.of_step {t : State} (h : step s = .next t) : StepEffect s t := by
  obtain ⟨t', ht', heff⟩ := step_effect s
  rw [h] at ht'
  cases ht'
  exact heff

/-! ## The instruction whose encoding is at `ip` -/

end

theorem encode_length_le_six (i : Instr) : (encode i).length ≤ 6 := by
  have le_six {bs : List Byte} {n : Nat} (h : bs.length = n ∧ 2 ≤ n ∧ n ≤ 6) : bs.length ≤ 6 := by omega
  cases i using Instr.byFormat with
  | movRmReg d w rm reg => exact le_six (Laws.Length.of_rmReg _ _ rm)
  | movRmImm ign rm imm => exact le_six (Laws.Length.of_irm _ _ rm imm)
  | movRegImm reg imm => exact le_six (Laws.Length.of_imm _ imm)
  | movAccMem w addr => exact le_six (Laws.Length.of_ma _ addr)
  | movMemAcc w addr => exact le_six (Laws.Length.of_ma _ addr)
  | rmReg k d w rm reg =>
    rw [encode_rmReg]
    exact le_six (Laws.Length.of_rmReg _ _ rm)
  | rmImm k rm imm =>
    rw [encode_rmImm]
    exact le_six (Laws.Length.of_grp _ _ rm imm)
  | accImm k imm =>
    rw [encode_accImm]
    exact le_six (Laws.Length.of_imm _ imm)
  | jump j disp =>
    rw [encode_jump]
    exact le_six (Laws.Length.of_j _ disp)

/-! ## The obligations -/

/-- Settles O5: the branches of the step, each by the lemma about it. -/
theorem stepRunsDecodedInstruction : Obligations.StepRunsDecodedInstruction := by
  intro s
  exact ⟨step_of_not_running, step_of_atEnd, fun i rest hs => step_of_decode hs, fun e hs => step_of_decode_error hs⟩

/-- Settles O7: a next state is among the effects of every step. -/
theorem stepAlwaysAnswersNext : Obligations.StepAlwaysAnswersNext := by
  intro s
  obtain ⟨t, ht, -⟩ := step_effect s
  exact ⟨t, ht⟩

/-- Settles O6: an encoding is at most six bytes, so the fetch holds it, and decoding gives the instruction back. -/
theorem stepRunsEncodedInstruction : Obligations.StepRunsEncodedInstruction := by
  intro s i hwf hs hcode
  have hprefix : encode i <+: s.fetchBytes := by
    rw [List.prefix_iff_getElem?]
    intro k hk
    have hk6 := lt_of_lt_of_le hk (encode_length_le_six i)
    rw [State.fetchBytes_get s k hk6, ← hcode k _ (List.getElem?_eq_getElem hk)]
    rfl
  obtain ⟨rest, hrest⟩ := hprefix
  apply step_of_decode hs
  rw [← State.fetchBytes_eq_code, ← hrest]
  exact decodeOfEncode i rest hwf

end Sys2Proof.Machine
end

