-- ==== Sys2Proof/Proofs/Frames.lean ====
section
/-! PROOF. The obligations about register operands (R12 to R14) and about what every instruction leaves unchanged (R17, R33,
R39, R105, R182). -/

namespace Sys2Proof.Machine

open Sys2Proof.Claims

/-! ## Byte registers (R12 to R14) -/

section
variable (x : Regs) {r : RegField}

theorem holder_byte_of_low (h : r.val < 4) : holder r .byte = r := by
  simp [holder, Nat.not_le.2 h]

theorem holder_byte_of_high (h : ¬ r.val < 4) : holder r .byte = r - 4 := by
  simp [holder, Nat.not_lt.1 h]

theorem le_three_iff : r ≤ 3 ↔ r.val < 4 := by
  rw [Fin.le_def]
  exact Nat.lt_succ_iff.symm

theorem Regs.operand_byte_of_low (h : r.val < 4) : x.operand r .byte = lowByte (x.read r) :=
  if_pos (le_three_iff.2 h)

theorem Regs.operand_byte_of_high (h : ¬ r.val < 4) : x.operand r .byte = highByte (x.read (r - 4)) :=
  if_neg (mt le_three_iff.1 h)

theorem Regs.setOperand_byte_of_low (h : r.val < 4) (v : Byte) :
    x.setOperand r .byte v = x.write r (le16 v (highByte (x.read r))) := if_pos (le_three_iff.2 h)

theorem Regs.setOperand_byte_of_high (h : ¬ r.val < 4) (v : Byte) :
    x.setOperand r .byte v = x.write (r - 4) (le16 (lowByte (x.read (r - 4))) v) := if_neg (mt le_three_iff.1 h)

/-- A write to a register operand changes the register that holds it and no other (R14). -/
theorem Regs.read_setOperand_of_ne_holder {j : RegField} {w : Width} (h : j ≠ holder r w) (v : BitVec w.bits) :
    (x.setOperand r w v).read j = x.read j := by
  cases w with
  | word => exact Regs.read_write_ne x v h.symm
  | byte =>
    by_cases hr : r.val < 4
    · rw [holder_byte_of_low hr] at h
      rw [Regs.setOperand_byte_of_low x hr, Regs.read_write_ne x _ h.symm]
    · rw [holder_byte_of_high hr] at h
      rw [Regs.setOperand_byte_of_high x hr, Regs.read_write_ne x _ h.symm]

/-- The byte of a register that the operand `r` at width 8 is not part of reads the same in both (R14). -/
def OtherHalfKept (r : RegField) (x x' : Regs) : Prop :=
  if r.val < 4 then (x'.read r).toNat / 256 = (x.read r).toNat / 256
  else (x'.read (r - 4)).toNat % 256 = (x.read (r - 4)).toNat % 256

theorem OtherHalfKept.refl (r : RegField) : OtherHalfKept r x x := by
  unfold OtherHalfKept
  split <;> rfl

theorem Regs.otherHalfKept_setOperand (r : RegField) (v : Byte) : OtherHalfKept r x (x.setOperand r .byte v) := by
  unfold OtherHalfKept
  split
  · rename_i hr
    rw [Regs.setOperand_byte_of_low x hr, Regs.read_write_self, ← highByte_toNat, highByte_le16, highByte_toNat]
  · rename_i hr
    rw [Regs.setOperand_byte_of_high x hr, Regs.read_write_self, ← lowByte_toNat, lowByte_le16, lowByte_toNat]

/-- Field values 4 to 7 name the high bytes of the registers 0 to 3. -/
theorem add_four_high : ∀ {r : RegField}, r.val < 4 → ¬ (r + 4).val < 4 := by decide

end

/-! ## What a write to an operand leaves unchanged (R101) -/

section
variable (s : State) (op : Operand) (w : Width) (v : BitVec w.bits)

@[simp] theorem putOperand_zf : (putOperand s op w v).zf = s.zf := by cases op <;> rfl
@[simp] theorem putOperand_sf : (putOperand s op w v).sf = s.sf := by cases op <;> rfl
@[simp] theorem putOperand_cause : (putOperand s op w v).cause = s.cause := by cases op <;> rfl
@[simp] theorem putOperand_progLen : (putOperand s op w v).progLen = s.progLen := by cases op <;> rfl
@[simp] theorem putOperand_branchExec : (putOperand s op w v).branchExec = s.branchExec := by cases op <;> rfl

variable {s op w}

theorem putOperand_read_of_ne_holder {j : RegField} (h : ∀ r, op = .reg r → j ≠ holder r w) :
    (putOperand s op w v).x.read j = s.x.read j := by
  cases op with
  | reg r => exact Regs.read_setOperand_of_ne_holder s.x (h r rfl) v
  | mem a => rfl

theorem putOperand_mem_read_of_outside (hin : op.InBounds w) {c : Nat}
    (h : ∀ a, op = .mem a → (c : Int) < a ∨ a + w.bytes ≤ c) : (putOperand s op w v).mem.read c = s.mem.read c := by
  cases op with
  | reg r => rfl
  | mem a =>
    obtain ⟨hlo, -⟩ := hin a rfl
    have hout := h a rfl
    exact Memory.read_writeAt_of_outside s.mem a.toNat w v c (by omega)

end

/-! ## Where a memory destination can be (R30, R39) -/

/-- The address of a memory destination is an effective address or a direct address. -/
theorem dest_mem_cases {i : Instr} {x : Regs} {a : Int} {w : Width} (h : dest i x = some (.mem a, w)) :
    (∃ rm, resolve rm x = .mem a) ∨ ∃ addr : Word, a = addr.toNat := by
  have hdir {d : Dir} {rm : Rm} {reg : RegField} {w' : Width}
      (h : some (Dir.dst d (resolve rm x) (.reg reg), w') = some (Operand.mem a, w)) : ∃ rm, resolve rm x = .mem a := by
    cases d with
    | regIsSource => exact ⟨rm, congrArg Prod.fst (Option.some.inj h)⟩
    | regIsDest => cases h
  have hres {rm : Rm} {w' : Width} (h : some (resolve rm x, w') = some (Operand.mem a, w)) : ∃ rm, resolve rm x = .mem a :=
    ⟨rm, congrArg Prod.fst (Option.some.inj h)⟩
  cases i with
  | movRmReg d w rm reg => exact .inl (hdir h)
  | addRmReg d w rm reg => exact .inl (hdir h)
  | subRmReg d w rm reg => exact .inl (hdir h)
  | movRmImm ign rm imm => exact .inl (hres h)
  | addRmImm rm imm => exact .inl (hres h)
  | subRmImm rm imm => exact .inl (hres h)
  | movMemAcc w addr =>
    cases h
    exact .inr ⟨addr, rfl⟩
  | _ => cases h

theorem dest_mem_le {i : Instr} {x : Regs} {a : Int} {w : Width} (h : dest i x = some (.mem a, w)) : a ≤ 0x27FFD := by
  obtain ⟨rm, hrm⟩ | ⟨addr, rfl⟩ := dest_mem_cases h
  · exact (resolve_bounds hrm).2
  · have := addr.isLt
    omega

/-! ## The frames -/

section
variable {i : Instr} {s t : State}

/-- A register that neither holds the destination nor is the `cx` of a loop is kept. -/
theorem Effect.read_eq (h : Effect i s t) {j : RegField} (hdest : ∀ r w, dest i s.x = some (.reg r, w) → j ≠ holder r w)
    (hcx : ¬ (decrementsCx i = true ∧ s.branchExec = .extended ∧ j = 1)) : t.x.read j = s.x.read j := by
  cases h with
  | trapped => rfl
  | copied hdst _ v => exact putOperand_read_of_ne_holder v fun r hr => hdest r _ (by rw [hdst, hr])
  | stored _ hdst _ r => exact putOperand_read_of_ne_holder r fun r hr => hdest r _ (by rw [hdst, hr])
  | compared => rfl
  | jumped hi hx =>
    subst hi
    rcases hx with rfl | ⟨hloop, hbe, rfl⟩
    · rfl
    · refine Regs.read_write_ne s.x _ fun hj => hcx ⟨?_, hbe, hj.symm⟩
      rw [decrementsCx_jump, hloop]

/-- A byte destination keeps the other byte of its register. -/
theorem Effect.otherHalfKept (h : Effect i s t) {r : RegField} (hdest : dest i s.x = some (.reg r, .byte)) :
    OtherHalfKept r s.x t.x := by
  cases h with
  | trapped => exact .refl s.x r
  | copied hdst _ v =>
    cases hdst.symm.trans hdest
    exact Regs.otherHalfKept_setOperand s.x r v
  | stored _ hdst _ v =>
    cases hdst.symm.trans hdest
    exact Regs.otherHalfKept_setOperand s.x r v
  | compared => exact .refl s.x r
  | jumped hi =>
    subst hi
    simp at hdest

theorem Effect.flags_eq (h : Effect i s t) (hflags : writesFlags i = false) : t.zf = s.zf ∧ t.sf = s.sf := by
  cases h with
  | trapped => exact ⟨rfl, rfl⟩
  | copied => exact ⟨putOperand_zf .., putOperand_sf ..⟩
  | stored hw => simp [hw] at hflags
  | compared hw => simp [hw] at hflags
  | jumped => exact ⟨rfl, rfl⟩

/-- A byte outside the memory destination is kept. -/
theorem Effect.mem_read_eq (h : Effect i s t) {c : Nat}
    (hout : ∀ a w, dest i s.x = some (.mem a, w) → (c : Int) < a ∨ a + w.bytes ≤ c) : t.mem.read c = s.mem.read c := by
  cases h with
  | trapped => rfl
  | copied hdst hin v => exact putOperand_mem_read_of_outside v hin fun a ha => hout a _ (by rw [hdst, ha])
  | stored _ hdst hin r => exact putOperand_mem_read_of_outside r hin fun a ha => hout a _ (by rw [hdst, ha])
  | compared => rfl
  | jumped => rfl

theorem Effect.launchArguments_eq (h : Effect i s t) : t.progLen = s.progLen ∧ t.branchExec = s.branchExec := by
  cases h with
  | trapped => exact ⟨rfl, rfl⟩
  | copied => exact ⟨putOperand_progLen .., putOperand_branchExec ..⟩
  | stored => exact ⟨putOperand_progLen .., putOperand_branchExec ..⟩
  | compared => exact ⟨rfl, rfl⟩
  | jumped => exact ⟨rfl, rfl⟩

/-- `status` and `cause` change only in a trap, and then nothing else does. -/
theorem Effect.status_eq_or_trapped (h : Effect i s t) :
    (t.status = s.status ∧ t.cause = s.cause) ∨ t = raisedOutOfBounds s := by
  cases h with
  | trapped => exact .inr rfl
  | copied => exact .inl ⟨putOperand_status .., putOperand_cause ..⟩
  | stored => exact .inl ⟨putOperand_status .., putOperand_cause ..⟩
  | compared => exact .inl ⟨rfl, rfl⟩
  | jumped => exact .inl ⟨rfl, rfl⟩

end

/-! ## The obligations -/

/-- Settles O17: at width 16 by the register itself; at width 8 by the byte that each half of the field values names. -/
theorem registerOperandHalves : Obligations.RegisterOperandHalves := by
  intro x r j
  refine ⟨rfl, fun v => ?_, fun hr => ?_⟩
  · rw [Regs.setOperand, Regs.read_write]
    simp only [eq_comm]
  · have hhigh := add_four_high hr
    have hsub : r + 4 - 4 = r := add_sub_cancel_right r 4
    refine ⟨?_, ?_, fun v => ?_, fun v => ?_⟩
    · rw [Regs.operand_byte_of_low x hr, lowByte_toNat]
    · rw [Regs.operand_byte_of_high x hhigh, hsub, highByte_toNat]
    · rw [Regs.setOperand_byte_of_low x hr, Regs.read_write, apply_ite BitVec.toNat, le16_toNat, highByte_toNat]
      simp only [eq_comm]
    · rw [Regs.setOperand_byte_of_high x hhigh, hsub, Regs.read_write, apply_ite BitVec.toNat, le16_toNat, lowByte_toNat]
      simp only [eq_comm]

/-- Settles O37: each effect keeps the registers that are not its destination, and the other half of a byte destination. -/
theorem registerFrame : Obligations.RegisterFrame := by
  intro i s t h
  have heff := Effect.of_exec h
  exact ⟨fun j hdest hcx => heff.read_eq hdest hcx, fun r hdest => heff.otherHalfKept hdest⟩

/-- Settles O38: the two effects that set the flags are those of ADD, SUB and CMP. -/
theorem flagFrame : Obligations.FlagFrame := by
  intro i s t h hflags
  exact (Effect.of_exec h).flags_eq hflags

/-- Settles O39: each effect keeps the bytes outside its memory destination. -/
theorem memoryFrame : Obligations.MemoryFrame := by
  intro i s t c h hout
  exact (Effect.of_exec h).mem_read_eq hout

/-- Settles O40: no effect changes a launch argument, and only the trap changes `status` and `cause`. -/
theorem controlFrame : Obligations.ControlFrame := by
  intro i s t h
  have heff := Effect.of_exec h
  obtain ⟨hlen, hbe⟩ := heff.launchArguments_eq
  exact ⟨hlen, hbe, heff.status_eq_or_trapped⟩

/-- Settles O20: only an instruction writes memory, and its destination ends below 0x27FFF. -/
theorem highMemoryUntouched : Obligations.HighMemoryUntouched := by
  intro s t a ha h
  cases StepEffect.of_step h with
  | stopped => rfl
  | halted => rfl
  | unrecognized => rfl
  | executed _ _ hexec =>
    refine hexec.mem_read_eq fun b w hdst => .inr ?_
    have hb := dest_mem_le hdst
    have hw : w.bytes ≤ 2 := by cases w <;> decide
    omega

end Sys2Proof.Machine
end

