-- ==== Sys2Proof/Proofs/Safety.lean ====
section
/-! PROOF. The obligations about every step (R91, R94, R182), about reset (R23, R200, R201), and about the invariant. -/

namespace Sys2Proof.Machine

open Sys2Proof.Claims

/-! ## The instruction pointer after an instruction (R94) -/

theorem Effect.ip_cases {i : Instr} {s t : State} (h : Effect i s t) :
    t.ip = s.ip ∨ t.ip = ipPlus s i.length ∨ ∃ d, jumpDisp i = some d ∧ t.ip = ipPlus s (2 + d.toInt) := by
  cases h with
  | trapped => exact .inl rfl
  | copied => exact .inr (.inl rfl)
  | stored => exact .inr (.inl rfl)
  | compared => exact .inr (.inl rfl)
  | jumped hi _ hn =>
    subst hi
    rcases hn with rfl | rfl
    · refine .inr (.inl ?_)
      rw [length_jump]
      rfl
    · exact .inr (.inr ⟨_, jumpDisp_jump .., rfl⟩)

/-! ## The memory of an image (R23, R201) -/

/-- A byte of the image at its address, and zero below and above the image. -/
theorem Memory.read_ofImage (a : Nat) (image : List Byte) (c : Nat) :
    (Memory.ofImage a image).read c = if a ≤ c then (image[c - a]?).getD 0#8 else 0#8 := by
  induction image generalizing a with
  | nil => simp [Memory.ofImage, Memory.unlisted]
  | cons b rest ih =>
    have hcons : (Memory.ofImage a (b :: rest)).read c = if a = c then b else (Memory.ofImage (a + 1) rest).read c := by
      by_cases hb : b = Memory.unlisted
      · rw [Memory.ofImage, if_pos hb, hb]
        split
        · rw [ih, if_neg (by omega)]
          rfl
        · rfl
      · rw [Memory.ofImage, if_neg hb, Memory.read_cons]
    rw [hcons, ih]
    by_cases hac : a = c
    · subst hac
      simp
    · by_cases hlt : a ≤ c
      · have hsub : c - a = (c - (a + 1)) + 1 := by omega
        have hle : a + 1 ≤ c := by omega
        simp [hac, hlt, hle, hsub]
      · have hle : ¬ a + 1 ≤ c := by omega
        simp [hac, hlt, hle]

theorem State.launch_mem_read (be : BranchExec) (image : List Byte) (a : Nat) :
    (State.launch be image).mem.read a = (image[a]?).getD 0#8 := by
  rw [State.launch_mem, Memory.read_ofImage, if_pos (Nat.zero_le a), Nat.sub_zero]

theorem Regs.read_replicate (v : Word) (r : RegField) : Regs.read (Vector.replicate 8 v) r = v := by
  simp [Regs.read, Vector.get_eq_getElem]

theorem State.reset_eq_launch : State.reset = State.launch .jnzOnly [] := rfl

/-! ## The invariant -/

theorem Memory.wf_putOperand {s : State} {op : Operand} {w : Width} (hm : s.mem.wf) (hin : op.InBounds w)
    (v : BitVec w.bits) : (putOperand s op w v).mem.wf := by
  cases op with
  | reg r => exact hm
  | mem a => exact Memory.wf_writeAt_of_inBounds hm v (hin a rfl)

/-- A result with its highest bit set is not zero (R131). -/
theorem State.setZS_not_both {n : Nat} (s : State) (r : BitVec n) : ¬ ((s.setZS r).zf = true ∧ (s.setZS r).sf = true) := by
  rintro ⟨hz, hs⟩
  have hr : r = 0#n := by simpa using hz
  simp [hr] at hs

theorem State.inv_launch (be : BranchExec) {image : List Byte} (h : image.length ≤ Config.memSize) :
    (State.launch be image).Inv where
  memWf := Memory.wf_ofImage 0 image (by omega)
  fits := h
  flags := by simp
  causeIff := by simp
  haltedAtEnd := by simp

section
variable {i : Instr} {s t : State}

theorem State.Inv.raise (h : s.Inv) (f : Fault) : (s.raise f).Inv where
  memWf := h.memWf
  fits := h.fits
  flags := h.flags
  causeIff := by cases f <;> simp [Fault.cause]
  haltedAtEnd := by simp

theorem State.Inv.halt (h : s.Inv) (hrun : s.status = .running) (hend : s.progLen ≤ s.ip.toNat) : s.halt.Inv where
  memWf := h.memWf
  fits := h.fits
  flags := h.flags
  causeIff := by simpa [hrun] using h.causeIff
  haltedAtEnd := fun _ => hend

theorem Effect.mem_wf (h : Effect i s t) (hm : s.mem.wf) : t.mem.wf := by
  cases h with
  | trapped => exact hm
  | copied _ hin v => exact Memory.wf_putOperand hm hin v
  | stored _ _ hin r => exact Memory.wf_putOperand hm hin r
  | compared => exact hm
  | jumped => exact hm

theorem Effect.flags_not_both (h : Effect i s t) (hf : ¬ (s.zf = true ∧ s.sf = true)) : ¬ (t.zf = true ∧ t.sf = true) := by
  cases h with
  | trapped => exact hf
  | copied => simpa using hf
  | @stored dst w _ _ _ r => exact State.setZS_not_both (putOperand s dst w r) r
  | compared _ r => exact State.setZS_not_both s r
  | jumped => exact hf

/-- An instruction of a running core keeps the invariant: memory and flags by its effect, and a core that runs on has
not halted. -/
theorem Effect.inv (h : Effect i s t) (hrun : s.status = .running) (hs : s.Inv) : t.Inv := by
  obtain ⟨hstatus, hcause⟩ | rfl := h.status_eq_or_trapped
  · exact {
      memWf := h.mem_wf hs.memWf
      fits := h.launchArguments_eq.1 ▸ hs.fits
      flags := h.flags_not_both hs.flags
      causeIff := by rw [hstatus, hcause, hs.causeIff]
      haltedAtEnd := by simp [hstatus, hrun] }
  · exact hs.raise .memoryOutOfBounds

end

/-! ## The obligations -/

/-- Settles O12: each effect of a step keeps the invariant. -/
theorem stepKeepsInvariant : Obligations.StepKeepsInvariant := by
  intro s t hs h
  cases StepEffect.of_step h with
  | stopped => exact hs
  | halted hrun hend => exact hs.halt hrun hend
  | unrecognized => exact hs.raise .unrecognizedOpcode
  | executed hready _ hexec => exact hexec.inv hready.1 hs

/-- Settles O11: the memory of an image is canonical, and `State.reset` is the launch of the empty image. -/
theorem invariantAtReset : Obligations.InvariantAtReset :=
  ⟨State.inv_launch .jnzOnly (image := []) (Nat.zero_le _), fun be _ h => State.inv_launch be h⟩

/-- Settles O10: what each address of the image's memory reads as, and the fields of reset. -/
theorem launchLoadsImage : Obligations.LaunchLoadsImage := by
  refine ⟨State.reset_eq_launch, fun be image _ => ⟨fun a b hb => ?_, fun a ha => ?_, Regs.read_replicate 0#16,
    rfl, rfl, rfl, rfl, rfl, rfl, rfl⟩⟩
  · rw [State.launch_mem_read, hb, Option.getD_some]
  · rw [State.launch_mem_read, List.getElem?_eq_none ha, Option.getD_none]

/-- Settles O8: of the effects of a step of a running core only the halt check leaves it halted, and `ip` is below 65 536. -/
theorem haltsExactlyAtEnd : Obligations.HaltsExactlyAtEnd := by
  intro s t hrun h
  have hiff : t.status = .halted ↔ s.progLen ≤ s.ip.toNat := by
    cases StepEffect.of_step h with
    | stopped hstop => exact absurd hrun hstop
    | halted _ hend => simp [hend]
    | unrecognized hready => simp [hready.2]
    | executed hready _ hexec =>
      obtain ⟨hstatus, -⟩ | rfl := hexec.status_eq_or_trapped
      · simp [hstatus, hrun, hready.2]
      · simp [raisedOutOfBounds, hready.2]
  refine ⟨hiff, fun hlen hhalt => ?_⟩
  have hend := hiff.1 hhalt
  have hip := s.ip.isLt
  omega

/-- Settles O9: only an instruction moves `ip`, past itself or by its displacement more. -/
theorem instructionPointerThreeWays : Obligations.InstructionPointerThreeWays := by
  intro s t h
  cases StepEffect.of_step h with
  | stopped => exact .inl rfl
  | halted => exact .inl rfl
  | unrecognized => exact .inl rfl
  | executed _ hdec hexec =>
    obtain hip | hip := hexec.ip_cases
    · exact .inl hip
    · exact .inr ⟨_, _, hdec, hip⟩

/-- Settles O16: the two effects that leave a running core faulted are the two faults taken. -/
theorem faultsArePrecise : Obligations.FaultsArePrecise := by
  intro s t hrun h hfault
  cases StepEffect.of_step h with
  | stopped hstop => exact absurd hrun hstop
  | halted => cases hfault
  | unrecognized => exact ⟨.inl rfl, rfl⟩
  | executed _ _ hexec =>
    obtain ⟨hstatus, -⟩ | rfl := hexec.status_eq_or_trapped
    · rw [hstatus, hrun] at hfault
      cases hfault
    · exact ⟨.inr rfl, rfl⟩

end Sys2Proof.Machine
end
